-- ==== Sys2Proof/Word.lean ====
section
/-! DEFINITION. The words of the machine: bytes, 16-bit addresses and the four register names (00_scope.md R6, R8; 10_state.md R13). -/

namespace Sys2Proof

/-- A byte: general registers, memory cells, the stack pointer (R6 XLEN, SPLEN). -/
abbrev Byte := BitVec 8

/-- A 16-bit address: the program counter and persistent-store addresses (R6 PCLEN, DISK_ALEN). -/
abbrev Addr := BitVec 16

/-- A 4-bit field: the opcode or the operand of the instruction word (R48). -/
abbrev Nibble := BitVec 4

/-- The four general registers x[0] to x[3] (R13). -/
inductive Reg where
  | r0 | r1 | r2 | r3
deriving DecidableEq, Repr

end Sys2Proof
end

