-- ==== Sys2Proof/Syntax.lean ====
section
/-! DEFINITION. The instructions, one constructor per row of spec/opcode_table.json (30_encoding.md R50, R53). -/

namespace Sys2Proof

/-- An instruction with its operand fields as the encoding gives them: `x` is an ignored nibble (R52), `n` and `m` are raw register
indices, legal only from 0 to 3 (R15, R51). -/
inductive Instr where
  | nop (x : Nibble)
  | load (n : Nibble) (imm8 : Byte)
  | store (n : Nibble) (addr8 : Byte)
  | add (n : Nibble) (m : Byte)
  | sub (n : Nibble) (m : Byte)
  | jmp (x : Nibble) (addr16 : Addr)
  | jz (x : Nibble) (addr16 : Addr)
  | call (x : Nibble) (addr16 : Addr)
  | ret (x : Nibble)
  | inp (n : Nibble)
  | out (n : Nibble)
  | diskRead (n : Nibble) (addr16 : Addr)
  | diskWrite (n : Nibble) (addr16 : Addr)
  | unrecognizedD (x : Nibble)
  | unrecognizedE (x : Nibble)
  | halt (x : Nibble)
deriving DecidableEq, Repr

end Sys2Proof
end

