-- ==== Sys2Proof/WellFormed.lean ====
section
/-! DEFINITION. Which instructions are legal encodings: no unrecognized opcode and no register index above 3 (30_encoding.md R56). -/

namespace Sys2Proof

/-- The opcode is one of the fourteen defined ones (R55, R56). -/
def Instr.opcodeDefined : Instr → Bool
  | .unrecognizedD _ | .unrecognizedE _ => false
  | .nop _ | .load _ _ | .store _ _ | .add _ _ | .sub _ _ | .jmp _ _ | .jz _ _ | .call _ _ | .ret _ | .inp _ | .out _
  | .diskRead _ _ | .diskWrite _ _ | .halt _ => true

/-- The register-operand fields in the order the engine checks them, n first, then m (R51, R71). -/
def Instr.registerFields : Instr → List Byte
  | .load n _ | .store n _ | .inp n | .out n | .diskRead n _ | .diskWrite n _ => [n.setWidth 8]
  | .add n m | .sub n m => [n.setWidth 8, m]
  | .nop _ | .jmp _ _ | .jz _ _ | .call _ _ | .ret _ | .unrecognizedD _ | .unrecognizedE _ | .halt _ => []

/-- The first register index above 3, if the instruction has one (R15, R95). -/
def Instr.firstIllegal (i : Instr) : Option Byte :=
  i.registerFields.find? (fun k => 3 < k.toNat)

/-- A legal instruction: neither kind of illegal encoding of R56. -/
def Instr.wellFormed (i : Instr) : Bool :=
  i.opcodeDefined && i.firstIllegal.isNone

end Sys2Proof
end

