-- ==== Sys2Proof/Decode.lean ====
section
/-! DEFINITION. The decoder and the encoder, from the tables of 30_encoding.md (R48 to R54, R58). -/

namespace Sys2Proof

/-- Why a list of bytes holds no whole instruction. Every byte value is an instruction word (R57), so only length can fail. -/
inductive DecodeError where
  /-- There is no byte at all. -/
  | noBytes
  /-- The extra bytes of the instruction word `word` are missing: it has `need`, there are `have_`. -/
  | truncated (word : Byte) (need have_ : Nat)
deriving DecidableEq, Repr

/-- The opcode field, bits 7:4 of the instruction word (R48). -/
def opcodeOf (w : Byte) : Nibble := w.extractLsb' 4 4

/-- The operand field, bits 3:0 of the instruction word (R48). -/
def operandOf (w : Byte) : Nibble := w.extractLsb' 0 4

/-- A 16-bit address from its two bytes: (hi << 8) | lo (R51). -/
def addr16Of (lo hi : Byte) : Addr := (hi.setWidth 16 <<< 8) ||| lo.setWidth 16

/-- The low byte of an address, fetched first (R36). -/
def lowByte (a : Addr) : Byte := a.extractLsb' 0 8

/-- The high byte of an address, fetched second (R36). -/
def highByte (a : Addr) : Byte := a.extractLsb' 8 8

/-- The instruction whose word is `w` and whose extra bytes, where it has them, are `b1` and `b2` (R53): one arm per row of the
opcode map, bits 7 to 4 as spec/opcode_table.json writes them. Total: decoding cannot fail in any other way (R63). -/
def decodeBytes (w b1 b2 : Byte) : Instr :=
  match w.getLsbD 7, w.getLsbD 6, w.getLsbD 5, w.getLsbD 4 with
  | false, false, false, false => .nop (operandOf w)
  | false, false, false, true  => .load (operandOf w) b1
  | false, false, true,  false => .store (operandOf w) b1
  | false, false, true,  true  => .add (operandOf w) b1
  | false, true,  false, false => .sub (operandOf w) b1
  | false, true,  false, true  => .jmp (operandOf w) (addr16Of b1 b2)
  | false, true,  true,  false => .jz (operandOf w) (addr16Of b1 b2)
  | false, true,  true,  true  => .call (operandOf w) (addr16Of b1 b2)
  | true,  false, false, false => .ret (operandOf w)
  | true,  false, false, true  => .inp (operandOf w)
  | true,  false, true,  false => .out (operandOf w)
  | true,  false, true,  true  => .diskRead (operandOf w) (addr16Of b1 b2)
  | true,  true,  false, false => .diskWrite (operandOf w) (addr16Of b1 b2)
  | true,  true,  false, true  => .unrecognizedD (operandOf w)
  | true,  true,  true,  false => .unrecognizedE (operandOf w)
  | true,  true,  true,  true  => .halt (operandOf w)

/-- How many extra bytes follow the instruction word (R49, R53). -/
def Instr.extraBytes : Instr → Nat
  | .nop _ | .ret _ | .inp _ | .out _ | .halt _ | .unrecognizedD _ | .unrecognizedE _ => 0
  | .load _ _ | .store _ _ | .add _ _ | .sub _ _ => 1
  | .jmp _ _ | .jz _ _ | .call _ _ | .diskRead _ _ | .diskWrite _ _ => 2

/-- The length in bytes (R54). -/
def Instr.length (i : Instr) : Nat := i.extraBytes + 1

/-- How many extra bytes the engine fetches after the word `w`: the opcode alone fixes it (R49). -/
def extraCount (w : Byte) : Nat := (decodeBytes w 0 0).extraBytes

/-- The decoder on any bytes: the first instruction and the bytes after it, or a rejection by name. -/
def decode : List Byte → Except DecodeError (Instr × List Byte)
  | [] => .error .noBytes
  | w :: rest =>
    if rest.length < extraCount w then .error (.truncated w (extraCount w) rest.length)
    else .ok (decodeBytes w (rest.getD 0 0) (rest.getD 1 0), rest.drop (extraCount w))

/-- An instruction word from its two fields (R48). -/
def wordOf (opcode operand : Nibble) : Byte := opcode ++ operand

/-- The opcode of an instruction (R53). -/
def Instr.opcode : Instr → Nibble
  | .nop _ => 0x0
  | .load _ _ => 0x1
  | .store _ _ => 0x2
  | .add _ _ => 0x3
  | .sub _ _ => 0x4
  | .jmp _ _ => 0x5
  | .jz _ _ => 0x6
  | .call _ _ => 0x7
  | .ret _ => 0x8
  | .inp _ => 0x9
  | .out _ => 0xA
  | .diskRead _ _ => 0xB
  | .diskWrite _ _ => 0xC
  | .unrecognizedD _ => 0xD
  | .unrecognizedE _ => 0xE
  | .halt _ => 0xF

/-- The operand nibble of an instruction (R48). -/
def Instr.operand : Instr → Nibble
  | .nop x | .ret x | .halt x | .unrecognizedD x | .unrecognizedE x | .jmp x _ | .jz x _ | .call x _ => x
  | .load n _ | .store n _ | .add n _ | .sub n _ | .inp n | .out n | .diskRead n _ | .diskWrite n _ => n

/-- The extra bytes in fetch order (R50, R51). -/
def Instr.extra : Instr → List Byte
  | .nop _ | .ret _ | .inp _ | .out _ | .halt _ | .unrecognizedD _ | .unrecognizedE _ => []
  | .load _ b | .store _ b | .add _ b | .sub _ b => [b]
  | .jmp _ a | .jz _ a | .call _ a | .diskRead _ a | .diskWrite _ a => [lowByte a, highByte a]

/-- The bytes of an instruction in fetch order (R50, R58). -/
def encode (i : Instr) : List Byte := wordOf i.opcode i.operand :: i.extra

/-- Byte `k` of the number `w`, of which only the low `nbits` bits count. -/
def tableByte (nbits w k : Nat) : Byte := BitVec.ofNat 8 ((w % 2 ^ nbits) >>> (8 * k))

/-- The bytes of a table word: the first byte is bits 7 to 0, the bits above `nbits` are zero, three bytes in all. -/
def tableBytes (nbits w : Nat) : List Byte := [tableByte nbits w 0, tableByte nbits w 1, tableByte nbits w 2]

/-- The instruction the decoder reads from a word numbered as spec/opcode_table.json numbers it. -/
def decodeTableWord (nbits w : Nat) : Option Instr :=
  match decode (tableBytes nbits w) with
  | .ok (i, _) => some i
  | .error _ => none

end Sys2Proof
end

