-- ==== Sys2Proof/Config.lean ====
section
/-! DEFINITION. The parameters of the machine (00_scope.md R6) and its one free value. -/

namespace Sys2Proof

/-- SP_RESET (R6, R24; the spec's decision D4, unaudited literal K12; log 1). -/
def Config.spReset : Byte := 0xFF

/-- REG_INIT: what each general register holds after Reset (R24; the spec's decision D2; log 1). -/
def Config.regInit : Byte := 0x00

/-- Z_INIT (R24; the spec's decision D3; log 1). -/
def Config.zInit : Bool := false

/-- The smallest memory capacity M the spec allows (R6, R29); DESIGN CHOICE: the reset state takes it (log 5). -/
def Config.memSizeMin : Nat := 65536

/-- The reference sizing of the persistent store, 100 MiB (R6); DESIGN CHOICE: the reset state takes it (log 4). -/
def Config.diskSizeReference : Nat := 104857600

/-- What a byte that nothing has written reads as, in the memory store (R31) and in the persistent store (R34, R35). -/
def Config.unwritten : Byte := 0x00

/-- FREE VALUE (R108, D27, K15; log 12): how many store or channel transactions of the instruction a Reset abandons had
already taken effect, of those answered and one DiskWrite, OutWrite or InRead in flight. It has no body, so nothing can be proved of its value. -/
opaque Config.transactionsDone : Nat → Nat

end Sys2Proof
end

