-- ==== Sys2Proof/Machine/State.lean ====
section
/-! DEFINITION. The machine's state, its faults and refusals, and the state after reset (10_state.md; 70_reset_and_hazards.md R105). -/

namespace Sys2Proof.Machine

/-- The engine's run state (R20). -/
inductive RunState where
  | running | halted | aborted
deriving DecidableEq, Repr

/-- Why the engine last stopped (R21). -/
inductive StopCause where
  | none | halt | unrecognizedOpcode | illegalRegister | outOfBounds
deriving DecidableEq, Repr

/-- The memory transactions of one instruction, in the order it makes them: at most three fetches, then the one of STORE, the two of
CALL or the two of RET (R71, R116). -/
inductive MemAccess where
  | word | extraFirst | extraSecond | store | pushHigh | pushLow | popLow | popHigh
deriving DecidableEq, Repr

/-- A port transaction whose collaborator has not answered yet (R22, R39, R62); `none` when nothing is pending. -/
inductive PortWait where
  | none
  /-- MemRead of the instruction word at pc (R64). -/
  | fetchWord
  /-- MemRead at pc of the next extra byte of `ir` (R65). -/
  | fetchExtra
  /-- MemWrite of `v` at `a` by STORE (R76). -/
  | store (a : Addr) (v : Byte)
  /-- The first push of a CALL to `t` (R81): the high byte of pc. -/
  | pushHigh (t : Addr)
  /-- The second push of a CALL to `t` (R81): the low byte of pc. -/
  | pushLow (t : Addr)
  /-- The first pop of a RET (R82). -/
  | popLow
  /-- The second pop of a RET that has popped `lo` (R82). -/
  | popHigh (lo : Byte)
  /-- InRead for register `r` (R83). -/
  | inRead (r : Reg)
  /-- OutWrite of `v` (R84, R99). -/
  | outWrite (v : Byte)
  /-- DiskRead at `a` for register `r` (R85). -/
  | diskRead (r : Reg) (a : Addr)
  /-- DiskWrite of `v` at `a`, not yet durable (R35, R86). -/
  | diskWrite (a : Addr) (v : Byte)
deriving DecidableEq, Repr

/-- The ports that one ready flag serves (R112); the input channel answers when it holds a token, the memory port has `memStall`. -/
inductive Port where
  | disk | output
deriving DecidableEq, Repr

/-- One move of the host (R112; log 11). -/
inductive HostMove where
  /-- Let the engine take one step. -/
  | pass
  /-- The Reset operation (R105, R108). -/
  | reset
  /-- The Start operation (R106, R107). -/
  | start (entry : Addr)
  /-- Load one byte of program or data (R31, R109). -/
  | load (a : Addr) (v : Byte)
  /-- Offer one token to the input channel (R46). -/
  | supply (t : Int)
  /-- Make a collaborator answer its port, or stop answering (R99, R112; log 10). -/
  | setReady (p : Port) (b : Bool)
  /-- Make the memory leave one transaction unanswered, or answer all (R39, R112; log 10). -/
  | stallMemory (m : Option MemAccess)
deriving DecidableEq, Repr

/-- A byte store: (address, byte) pairs, addresses strictly rising, no byte equal to `Config.unwritten`. -/
abbrev Memory := List Host.Cell

/-- Everything the spec gives the machine (INVENTORY.md, State). -/
structure State where
  /-- x[0] to x[3] (R13). -/
  x0 : Byte
  x1 : Byte
  x2 : Byte
  x3 : Byte
  /-- The address of the next byte to fetch (R16). -/
  pc : Addr
  /-- The stack pointer (R18). -/
  sp : Byte
  /-- The zero flag (R19). -/
  z : Bool
  runState : RunState
  stopCause : StopCause
  /-- stop_info and stop_addr (R21). -/
  stopInfo : Byte
  stopAddr : Addr
  /-- The instruction word last fetched and the extra bytes fetched after it (R22). -/
  ir : Byte
  extra : List Byte
  /-- The port transaction that waits (R22). -/
  wait : PortWait
  /-- The memory store and its capacity M (R29). -/
  mem : Memory
  memSize : Nat
  /-- The persistent store and its capacity D (R32); capacity 0 means that no store is open (log 13). -/
  disk : Memory
  diskSize : Nat
  /-- Tokens offered and not yet consumed, oldest first (R46). -/
  input : List Int
  /-- Bytes emitted, oldest first (R47). -/
  output : List Byte
  /-- The transaction that the memory leaves unanswered at present; `none` when it answers all (R39, R62, R112; log 10). -/
  memStall : Option MemAccess
  /-- Whether the persistent store and the output channel answer their ports now (R112; log 10). -/
  diskReady : Bool
  outputReady : Bool
  /-- The model's own: the host's moves still to come (log 11). -/
  host : List HostMove
  /-- The model's own: how many free values have been drawn (log 12). -/
  draws : Nat
deriving DecidableEq, Repr

/-- Why a step stops with a fault. -/
inductive Fault where
  /-- Raised by the engine's step from run state Aborted, with the out-of-bounds address: "A model treats the Aborted state as a fault"
  (R27, R93). Safe: nothing is claimed of what follows (log 7). -/
  | aborted (addr : Addr)
deriving DecidableEq, Repr

/-- Why a step is refused. -/
inductive Refusal where
  /-- Raised by exec's arm of an instruction that has no meaning yet; no arm does. Safe. -/
  | notModelled (mnemonic : String)
  /-- Raised by the host's Start when no persistent store is open: "A model refuses such a launch" (R98, K7). Safe (log 13). -/
  | storeUnavailable
  /-- Raised by the host's load while the engine is Running: the host changes memory during a run "never" (R112, D21). Safe (log 14). -/
  | hostLoadWhileRunning
deriving DecidableEq, Repr

/-- The machine right after Reset (R24, R105), with a zeroed memory (R31), a fresh persistent store (R34) and channels on which
nothing has happened; the host has made no further move (logs 1 to 6, 10, 11, 12, 21). -/
def State.reset : State where
  x0 := Config.regInit
  x1 := Config.regInit
  x2 := Config.regInit
  x3 := Config.regInit
  pc := 0x0000
  sp := Config.spReset
  z := Config.zInit
  runState := .halted
  stopCause := .none
  stopInfo := 0x00
  stopAddr := 0x0000
  ir := 0x00
  extra := []
  wait := .none
  mem := []
  memSize := Config.memSizeMin
  disk := []
  diskSize := Config.diskSizeReference
  input := []
  output := []
  memStall := none
  diskReady := true
  outputReady := true
  host := []
  draws := 0

end Sys2Proof.Machine
end

