-- ==== Sys2Proof/Machine/Ops.lean ====
section
/-! DEFINITION. The named operations over registers, stores, channels and status, and every way an instruction stops
(40_engine.md R65 to R69; 20_memory.md; 60_exceptions.md R91 to R93). -/

namespace Sys2Proof.Machine

/-! Registers (R9, R13). -/

/-- x[r]. -/
def State.getReg (s : State) : Reg → Byte
  | .r0 => s.x0
  | .r1 => s.x1
  | .r2 => s.x2
  | .r3 => s.x3

/-- x[r] <- v. -/
def State.setReg (s : State) (r : Reg) (v : Byte) : State :=
  match r with
  | .r0 => { s with x0 := v }
  | .r1 => { s with x1 := v }
  | .r2 => { s with x2 := v }
  | .r3 => { s with x3 := v }

/-! A byte store in canonical form. -/

/-- The byte at an address; an unlisted address reads as `Config.unwritten` (R31, R35). -/
def Memory.read : Memory → Nat → Byte
  | [], _ => Config.unwritten
  | c :: m, a => if c.1 = a then c.2 else Memory.read m a

/-- A cell put before the first cell with a larger address. -/
def Memory.insert (c : Host.Cell) : Memory → Memory
  | [] => [c]
  | d :: m => if c.1 < d.1 then c :: d :: m else d :: Memory.insert c m

/-- Every cell of an address taken out. -/
def Memory.erase (m : Memory) (a : Nat) : Memory := m.filter (fun c => c.1 != a)

/-- The byte `v` written at `a`: exactly that byte changes (R39), and the canonical form is kept. -/
def Memory.write (m : Memory) (a : Nat) (v : Byte) : Memory :=
  if v = Config.unwritten then Memory.erase m a else Memory.insert (a, v) (Memory.erase m a)

/-- The canonical form: addresses strictly rising, no cell equal to what an unlisted address reads as. -/
def Memory.wf : Memory → Bool
  | [] => true
  | c :: m => c.2 != Config.unwritten && m.all (fun d => c.1 < d.1) && Memory.wf m

/-! The memory and persistent-store ports: an answer, or OutOfBounds with the address (R5, R30, R33). -/

/-- MemRead(addr, 1). -/
def memRead (a : Addr) (s : State) : Except Addr Byte :=
  if a.toNat < s.memSize then .ok (s.mem.read a.toNat) else .error a

/-- MemWrite(addr, 1, v). A failed write changes no byte. -/
def memWrite (a : Addr) (v : Byte) (s : State) : Except Addr State :=
  if a.toNat < s.memSize then .ok { s with mem := s.mem.write a.toNat v } else .error a

/-- DiskRead(addr). -/
def diskRead (a : Addr) (s : State) : Except Addr Byte :=
  if a.toNat < s.diskSize then .ok (s.disk.read a.toNat) else .error a

/-- DiskWrite(addr, v); the answer means that the byte is durable (R35). -/
def diskWrite (a : Addr) (v : Byte) (s : State) : Except Addr State :=
  if a.toNat < s.diskSize then .ok { s with disk := s.disk.write a.toNat v } else .error a

/-! Stops: the one shared operation by which an instruction leaves Running (R89, R97), and the named conditions over it. -/

/-- Leave Running with a run state, a cause and its information. Nothing else changes (R91 to R93, R97). -/
def State.stop (s : State) (rs : RunState) (cause : StopCause) (info : Byte) (addr : Addr) : State :=
  { s with runState := rs, stopCause := cause, stopInfo := info, stopAddr := addr }

/-- The HALT stop (R87, R89); stop_addr is 0x0000 by R21 (log 26). -/
def State.raiseHalt (s : State) : State := s.stop .halted .halt 0x00 0x0000

/-- UnrecognizedOpcode(word) (R91). -/
def State.raiseUnrecognized (s : State) (word : Byte) : State := s.stop .halted .unrecognizedOpcode word 0x0000

/-- IllegalRegister(k) (R92). -/
def State.raiseIllegalRegister (s : State) (k : Byte) : State := s.stop .halted .illegalRegister k 0x0000

/-- OutOfBounds(addr) (R93). -/
def State.raiseOutOfBounds (s : State) (a : Addr) : State := s.stop .aborted .outOfBounds 0x00 a

/-! The stack (R18, R68, R69). -/

/-- The memory address a stack pointer names: zext_16(sp). -/
def stackAddr (sp : Byte) : Addr := sp.setWidth 16

/-- Push(v): write at sp, then decrement sp modulo 256. -/
def push (v : Byte) (s : State) : Except Addr State :=
  match memWrite (stackAddr s.sp) v s with
  | .ok t => .ok { t with sp := s.sp - 1 }
  | .error a => .error a

/-- Pop(): increment sp modulo 256, then read at the new sp. Where the read is out of bounds the pop is not completed and its sp change
is not made (R73; DEDUCED, log 18). -/
def pop (s : State) : Except Addr (Byte × State) :=
  match memRead (stackAddr (s.sp + 1)) s with
  | .ok v => .ok (v, { s with sp := s.sp + 1 })
  | .error a => .error a

/-! Fetching (R65, R71 steps 1 and 2). Where a fetch is out of bounds or unanswered, `error` holds the state it leaves: Aborted, or
waiting. -/

/-- Fetch(): one byte at pc, then pc advances by one modulo 65536 (R17). -/
def fetch (s : State) : Except Addr (Byte × State) :=
  match memRead s.pc s with
  | .ok b => .ok (b, { s with pc := s.pc + 1 })
  | .error a => .error a

/-- Whether the memory answers a transaction now; until it does, the engine waits (R22, R39, R62; log 10). -/
def State.memAnswers (s : State) (m : MemAccess) : Bool := decide (s.memStall ≠ some m)

/-- Fetch the instruction word into ir (R64). -/
def fetchWord (s : State) : Except State State :=
  if s.memAnswers .word then
    match fetch s with
    | .ok (b, t) => .ok { t with ir := b, extra := [] }
    | .error a => .error (s.raiseOutOfBounds a)
  else .error { s with wait := .fetchWord }

/-- The transaction that fetches the extra byte after those already fetched. -/
def extraAccess : List Byte → MemAccess
  | [] => .extraFirst
  | _ :: _ => .extraSecond

/-- Fetch `k` extra bytes (R49). -/
def fetchExtra : Nat → State → Except State State
  | 0, s => .ok s
  | k + 1, s =>
    if s.memAnswers (extraAccess s.extra) then
      match fetch s with
      | .ok (b, t) => fetchExtra k { t with extra := t.extra ++ [b] }
      | .error a => .error (s.raiseOutOfBounds a)
    else .error { s with wait := .fetchExtra }

/-- Fetch a whole instruction: pc has passed all its bytes (R71 step 2). -/
def fetchInstr (s : State) : Except State State :=
  match fetchWord s with
  | .ok t => fetchExtra (extraCount t.ir) t
  | .error t => .error t

/-- What the engine fetches next, if it is at the beginning of an instruction or in a fetch that waits (R62, R64); `none` where a later
transaction waits. -/
def fetching (s : State) : Option (Except State State) :=
  match s.wait with
  | .none => some (fetchInstr s)
  | .fetchWord => some (fetchInstr { s with wait := .none })
  | .fetchExtra => some (fetchExtra (extraCount s.ir - s.extra.length) { s with wait := .none })
  | .store _ _ | .pushHigh _ | .pushLow _ | .popLow | .popHigh _ | .inRead _ | .outWrite _ | .diskRead _ _ | .diskWrite _ _ => none

/-- The instruction the engine has fetched (R63). -/
def State.fetched (s : State) : Instr := decodeBytes s.ir (s.extra.getD 0 0) (s.extra.getD 1 0)

/-! What the host can see (R27). -/

/-- The registers and status a host reads. -/
structure Observation where
  x0 : Byte
  x1 : Byte
  x2 : Byte
  x3 : Byte
  pc : Addr
  sp : Byte
  z : Bool
  runState : RunState
  stopCause : StopCause
  stopInfo : Byte
  stopAddr : Addr
deriving DecidableEq, Repr

/-- The number the status output presents for a cause (R21). -/
def StopCause.code : StopCause → Nat
  | .none => 0
  | .halt => 1
  | .unrecognizedOpcode => 2
  | .illegalRegister => 3
  | .outOfBounds => 4

/-- What the host reads: nothing while the engine is Running (R27). -/
def State.observe (s : State) : Option Observation :=
  match s.runState with
  | .running => none
  | .halted | .aborted =>
    some { x0 := s.x0, x1 := s.x1, x2 := s.x2, x3 := s.x3, pc := s.pc, sp := s.sp, z := s.z, runState := s.runState,
           stopCause := s.stopCause, stopInfo := s.stopInfo, stopAddr := s.stopAddr }

/-! Placing an instruction for the host's question (log 11). -/

/-- Bytes written at consecutive addresses modulo 65536. -/
def placeBytes : List Byte → Addr → Memory → Memory
  | [], _, m => m
  | b :: bs, a, m => placeBytes bs (a + 1) (m.write a.toNat b)

end Sys2Proof.Machine
end

