-- ==== Sys2Proof/Machine/Flags.lean ====
section
/-! DEFINITION. The zero flag and the two ALU operations (40_engine.md R70; 41_data_alu.md R77, R78). -/

namespace Sys2Proof.Machine

/-- SetZ(v): the zero flag from the byte just written to a register (R70). -/
def State.setZ (s : State) (v : Byte) : State := { s with z := v == 0x00 }

/-- The 9-bit sum, truncated to 8 bits (R77). -/
def aluAdd (a b : Byte) : Byte := (a.setWidth 9 + b.setWidth 9).setWidth 8

/-- The exact difference, taken modulo 256 (R78). -/
def aluSub (a b : Byte) : Byte := BitVec.ofInt 8 ((a.toNat : Int) - (b.toNat : Int))

/-- A token's low 8 bits: t mod 256, also for t < 0 (R83; the spec's decision D16, log 15). -/
def tokenByte (t : Int) : Byte := BitVec.ofNat 8 (t % 256).toNat

/-- x[r] <- v; SetZ(v): what LOAD, ADD, SUB, IN and DISK_READ end with (R19, R70). -/
def State.writeResult (s : State) (r : Reg) (v : Byte) : State := (s.setReg r v).setZ v

end Sys2Proof.Machine
end

