-- ==== Sys2Proof/Machine/Operands.lean ====
section
/-! DEFINITION. Operand forms and the shared store and channel transactions (30_encoding.md R51; 40_engine.md R66; 20_memory.md R46, R47). -/

namespace Sys2Proof.Machine

/-- The register an index names: only 0 to 3 name one (R15, R51). -/
def regOfIndex (k : Byte) : Option Reg :=
  if k = 0 then some .r0
  else if k = 1 then some .r1
  else if k = 2 then some .r2
  else if k = 3 then some .r3
  else none

/-- The operand nibble n as an index of 8 bits (R51). -/
def indexOfNibble (n : Nibble) : Byte := n.setWidth 8

/-- The memory address of an 8-bit address operand: zext_16(addr8) (R51). -/
def addr8Of (d : Byte) : Addr := d.setWidth 16

/-- Reg(k): go on with the register, or stop with IllegalRegister(k) and nothing written (R66, R92). -/
def withReg (k : Byte) (s : State) (go : Reg → State) : State :=
  match regOfIndex k with
  | some r => go r
  | none => s.raiseIllegalRegister k

/-- InRead into register r: the oldest token's low byte and Z, or the IN wait when there is no token (R83). -/
def inRead (r : Reg) (s : State) : State :=
  match s.input with
  | [] => { s with wait := .inRead r }
  | t :: ts => { s with input := ts }.writeResult r (tokenByte t)

/-- A byte appended to what the output channel has received (R47). -/
def State.emit (s : State) (v : Byte) : State := { s with output := s.output ++ [v] }

/-- OutWrite(v): emitted when the channel takes it; until then the engine waits (R47, R99). -/
def outWrite (v : Byte) (s : State) : State :=
  if s.outputReady then s.emit v else { s with wait := .outWrite v }

/-- A DiskRead into register r: the wait, the byte and Z, or the abort (R85, R93). -/
def diskReadInto (r : Reg) (a : Addr) (s : State) : State :=
  if s.diskReady then
    match diskRead a s with
    | .ok v => s.writeResult r v
    | .error b => s.raiseOutOfBounds b
  else { s with wait := .diskRead r a }

/-- A DiskWrite: the wait until it is durable, the byte written, or the abort (R35, R86, R93). -/
def diskWriteFrom (a : Addr) (v : Byte) (s : State) : State :=
  if s.diskReady then
    match diskWrite a v s with
    | .ok t => t
    | .error b => s.raiseOutOfBounds b
  else { s with wait := .diskWrite a v }

/-- A memory store: the wait, the byte written, or the abort (R39, R76, R93). -/
def storeByte (a : Addr) (v : Byte) (s : State) : State :=
  if s.memAnswers .store then
    match memWrite a v s with
    | .ok t => t
    | .error b => s.raiseOutOfBounds b
  else { s with wait := .store a v }

/-! The two stack transactions of CALL and RET. Each waits until the memory answers it (R39); an abort keeps the push or pop completed
before it (R73). -/

/-- The second push of a CALL, and the jump (R81). -/
def callPushLow (t : Addr) (s : State) : State :=
  if s.memAnswers .pushLow then
    match push (lowByte s.pc) s with
    | .ok s2 => { s2 with pc := t }
    | .error a => s.raiseOutOfBounds a
  else { s with wait := .pushLow t }

/-- The first push of a CALL, and the rest of it (R81): the return address is pc. -/
def callPushHigh (t : Addr) (s : State) : State :=
  if s.memAnswers .pushHigh then
    match push (highByte s.pc) s with
    | .ok s1 => callPushLow t s1
    | .error a => s.raiseOutOfBounds a
  else { s with wait := .pushHigh t }

/-- The second pop of a RET, and the jump (R82). -/
def retPopHigh (lo : Byte) (s : State) : State :=
  if s.memAnswers .popHigh then
    match pop s with
    | .ok (hi, s2) => { s2 with pc := addr16Of lo hi }
    | .error a => s.raiseOutOfBounds a
  else { s with wait := .popHigh lo }

/-- The first pop of a RET, and the rest of it (R82). -/
def retPopLow (s : State) : State :=
  if s.memAnswers .popLow then
    match pop s with
    | .ok (lo, s1) => retPopHigh lo s1
    | .error a => s.raiseOutOfBounds a
  else { s with wait := .popLow }

end Sys2Proof.Machine
end

