-- ==== Sys2Proof/Machine/ControlFlow.lean ====
section
/-! DEFINITION. JMP, JZ, CALL and RET (42_control_flow.md). On entry pc is past the instruction's bytes (R71). -/

namespace Sys2Proof.Machine

/-- JMP addr16 (R79). -/
def execJmp (_x : Nibble) (t : Addr) (s : State) : Host.Outcome State Fault Refusal := .next { s with pc := t }

/-- JZ addr16 (R80). -/
def execJz (_x : Nibble) (t : Addr) (s : State) : Host.Outcome State Fault Refusal :=
  .next (if s.z then { s with pc := t } else s)

/-- CALL addr16 (R81): push the high byte of pc, push the low byte, jump. -/
def execCall (_x : Nibble) (t : Addr) (s : State) : Host.Outcome State Fault Refusal := .next (callPushHigh t s)

/-- RET (R82): pop the low byte, pop the high byte, jump. -/
def execRet (_x : Nibble) (s : State) : Host.Outcome State Fault Refusal := .next (retPopLow s)

end Sys2Proof.Machine
end

