-- ==== Sys2Proof/Machine/DataAlu.lean ====
section
/-! DEFINITION. NOP, LOAD, STORE, ADD and SUB (41_data_alu.md). On entry pc is past the instruction's bytes (R71). -/

namespace Sys2Proof.Machine

/-- NOP (R74). The nibble is ignored. -/
def execNop (_x : Nibble) (s : State) : Host.Outcome State Fault Refusal := .next s

/-- LOAD Rn, imm8 (R75). -/
def execLoad (n : Nibble) (imm8 : Byte) (s : State) : Host.Outcome State Fault Refusal :=
  .next (withReg (indexOfNibble n) s fun i => s.writeResult i imm8)

/-- STORE Rn, addr8 (R76). -/
def execStore (n : Nibble) (addr8 : Byte) (s : State) : Host.Outcome State Fault Refusal :=
  .next (withReg (indexOfNibble n) s fun i => storeByte (addr8Of addr8) (s.getReg i) s)

/-- ADD Rn, Rm (R77): both operands are read before the write (R72). -/
def execAdd (n : Nibble) (m : Byte) (s : State) : Host.Outcome State Fault Refusal :=
  .next (withReg (indexOfNibble n) s fun i => withReg m s fun j => s.writeResult i (aluAdd (s.getReg i) (s.getReg j)))

/-- SUB Rn, Rm (R78): both operands are read before the write (R72). -/
def execSub (n : Nibble) (m : Byte) (s : State) : Host.Outcome State Fault Refusal :=
  .next (withReg (indexOfNibble n) s fun i => withReg m s fun j => s.writeResult i (aluSub (s.getReg i) (s.getReg j)))

end Sys2Proof.Machine
end

