-- ==== Sys2Proof/Machine/Halt.lean ====
section
/-! DEFINITION. HALT and the unrecognized opcodes (44_halt.md). On entry pc is past the instruction word. -/

namespace Sys2Proof.Machine

/-- HALT (R87). -/
def execHalt (_x : Nibble) (s : State) : Host.Outcome State Fault Refusal := .next s.raiseHalt

/-- The words 0xD0 to 0xDF (R88): stop_info is the whole word. -/
def execUnrecognizedD (x : Nibble) (s : State) : Host.Outcome State Fault Refusal :=
  .next (s.raiseUnrecognized (wordOf 0xD x))

/-- The words 0xE0 to 0xEF (R88): stop_info is the whole word. -/
def execUnrecognizedE (x : Nibble) (s : State) : Host.Outcome State Fault Refusal :=
  .next (s.raiseUnrecognized (wordOf 0xE x))

end Sys2Proof.Machine
end

