-- ==== Sys2Proof/Machine/Io.lean ====
section
/-! DEFINITION. IN, OUT, DISK_READ and DISK_WRITE (43_io.md). On entry pc is past the instruction's bytes (R71). -/

namespace Sys2Proof.Machine

/-- IN Rn (R83): the register check comes before InRead. -/
def execIn (n : Nibble) (s : State) : Host.Outcome State Fault Refusal :=
  .next (withReg (indexOfNibble n) s fun i => inRead i s)

/-- OUT Rn (R84). -/
def execOut (n : Nibble) (s : State) : Host.Outcome State Fault Refusal :=
  .next (withReg (indexOfNibble n) s fun i => outWrite (s.getReg i) s)

/-- DISK_READ Rn, addr16 (R85). -/
def execDiskRead (n : Nibble) (t : Addr) (s : State) : Host.Outcome State Fault Refusal :=
  .next (withReg (indexOfNibble n) s fun i => diskReadInto i t s)

/-- DISK_WRITE Rn, addr16 (R86). -/
def execDiskWrite (n : Nibble) (t : Addr) (s : State) : Host.Outcome State Fault Refusal :=
  .next (withReg (indexOfNibble n) s fun i => diskWriteFrom t (s.getReg i) s)

end Sys2Proof.Machine
end

