-- ==== Sys2Proof/Machine/Dispatch.lean ====
section
/-! DEFINITION. One arm per instruction (40_engine.md R63). -/

namespace Sys2Proof.Machine

-- exec runs an instruction whose bytes have all been fetched: pc is past them (R71).
def exec (i : Instr) (s : State) : Host.Outcome State Fault Refusal :=
  match i with
  | .nop x => Sys2Proof.Machine.execNop x s
  | .load n imm8 => Sys2Proof.Machine.execLoad n imm8 s
  | .store n addr8 => Sys2Proof.Machine.execStore n addr8 s
  | .add n m => Sys2Proof.Machine.execAdd n m s
  | .sub n m => Sys2Proof.Machine.execSub n m s
  | .jmp x t => Sys2Proof.Machine.execJmp x t s
  | .jz x t => Sys2Proof.Machine.execJz x t s
  | .call x t => Sys2Proof.Machine.execCall x t s
  | .ret x => Sys2Proof.Machine.execRet x s
  | .inp n => Sys2Proof.Machine.execIn n s
  | .out n => Sys2Proof.Machine.execOut n s
  | .diskRead n t => Sys2Proof.Machine.execDiskRead n t s
  | .diskWrite n t => Sys2Proof.Machine.execDiskWrite n t s
  | .unrecognizedD x => Sys2Proof.Machine.execUnrecognizedD x s
  | .unrecognizedE x => Sys2Proof.Machine.execUnrecognizedE x s
  | .halt x => Sys2Proof.Machine.execHalt x s

end Sys2Proof.Machine
end

