-- ==== Sys2Proof/Machine/Engine.lean ====
section
/-! DEFINITION. The engine's cycle and the host's moves (40_engine.md R60 to R64; 70_reset_and_hazards.md R105 to R112). -/

namespace Sys2Proof.Machine

/-! The engine. -/

/-- The waiting transaction asked again, and the rest of its instruction: as before if its collaborator still does not answer (R22,
R39, R62, R83). A wait inside a fetch is taken up by `fetching`. -/
def resume (s : State) : State :=
  match s.wait with
  | .none | .fetchWord | .fetchExtra => s
  | .store a v => storeByte a v { s with wait := .none }
  | .pushHigh t => callPushHigh t { s with wait := .none }
  | .pushLow t => callPushLow t { s with wait := .none }
  | .popLow => retPopLow { s with wait := .none }
  | .popHigh lo => retPopHigh lo { s with wait := .none }
  | .inRead r => inRead r { s with wait := .none }
  | .outWrite v => outWrite v { s with wait := .none }
  | .diskRead r a => diskReadInto r a { s with wait := .none }
  | .diskWrite a v => diskWriteFrom a v { s with wait := .none }

/-- Execute the instruction fetched, or stay where its fetch aborted or waits (R64). -/
def runFetched (f : Except State State) : Host.Outcome State Fault Refusal :=
  match f with
  | .ok t => exec t.fetched t
  | .error t => .next t

/-- One step of the engine (R61, R62, R64): one instruction while Running, as far as the ports answer (R22, R39); nothing while
Halted (R20, R104; log 8); the fault `aborted` from Aborted (R93; log 7). -/
def engineStep (s : State) : Host.Outcome State Fault Refusal :=
  match s.runState with
  | .halted => .next s
  | .aborted => .fault (.aborted s.stopAddr)
  | .running =>
    match fetching s with
    | some f => runFetched f
    | none => .next (resume s)

/-! Reset. -/

/-- The core's state at the values of R24; the stores, the channels and the host's side are not touched (R31, R34, R105). -/
def coreReset (s : State) : State :=
  { State.reset with
    mem := s.mem, memSize := s.memSize, disk := s.disk, diskSize := s.diskSize, input := s.input, output := s.output,
    memStall := s.memStall, diskReady := s.diskReady, outputReady := s.outputReady, host := s.host, draws := s.draws }

/-- The state a transaction gives, or the state before it where it is out of bounds (R30, R33). -/
def stateOr (s : State) (r : Except Addr State) : State :=
  match r with
  | .ok t => t
  | .error _ => s

/-- The state if the in-flight DiskWrite, OutWrite or InRead, not answered yet, had taken effect at its collaborator (R108, D27, K15). A
memory write that is not answered is not made: it stays unmade (R108). -/
def commitWait (s : State) : State :=
  match s.wait with
  | .none | .fetchWord | .fetchExtra | .store _ _ | .pushHigh _ | .pushLow _ | .popLow | .popHigh _ | .diskRead _ _ => s
  | .inRead _ => { s with input := s.input.drop 1 }
  | .outWrite v => s.emit v
  | .diskWrite a v => stateOr s (diskWrite a v s)

/-- The first push of a CALL made, if the memory answers it (R81, R108). -/
def afterFirstPush (s : State) : State :=
  if s.memAnswers .pushHigh then stateOr s (push (highByte s.pc) s) else s

/-- All store and channel transactions of an instruction done: those answered, and one in flight. -/
def afterAllTransactions (i : Instr) (s : State) : State :=
  match exec i s with
  | .next t => commitWait t
  | .fault _ | .refused _ => s

/-- The first transaction that changes a store or a channel done: only CALL makes a second one (R71). -/
def afterFirstTransaction (i : Instr) (s : State) : State :=
  match i with
  | .call _ _ => afterFirstPush s
  | .nop _ | .load _ _ | .store _ _ | .add _ _ | .sub _ _ | .jmp _ _ | .jz _ _ | .ret _ | .inp _ | .out _ | .diskRead _ _
  | .diskWrite _ _ | .unrecognizedD _ | .unrecognizedE _ | .halt _ => afterAllTransactions i s

/-- The first `k` store or channel transactions of a fetched instruction done. -/
def afterTransactions (k : Nat) (i : Instr) (s : State) : State :=
  match k with
  | 0 => s
  | 1 => afterFirstTransaction i s
  | _ + 2 => afterAllTransactions i s

/-- All transactions done that the waiting instruction still has to make: those answered by now, and one in flight. -/
def afterRest (s : State) : State := commitWait (resume s)

/-- The first `k` transactions done of those that the waiting instruction still has to make: two where a CALL waits with its first push,
else one. -/
def afterWaiting (k : Nat) (s : State) : State :=
  match k with
  | 0 => s
  | 1 =>
    match s.wait with
    | .pushHigh _ => afterFirstPush s
    | .none | .fetchWord | .fetchExtra | .store _ _ | .pushLow _ | .popLow | .popHigh _ | .inRead _ | .outWrite _ | .diskRead _ _
    | .diskWrite _ _ => afterRest s
  | _ + 2 => afterRest s

/-- A Running engine cut off in its instruction after `k` transactions that change a store or a channel (R108). -/
def abandon (k : Nat) (s : State) : State :=
  match fetching s with
  | some (.ok t) => afterTransactions k t.fetched t
  | some (.error t) => t
  | none => afterWaiting k s

/-- Reset (R105). While Running it first abandons the instruction in progress, of which a free number of transactions has taken
effect (R108, D27; log 12). -/
def hostReset (s : State) : State :=
  if s.runState = .running then coreReset { abandon (Config.transactionsDone s.draws) s with draws := s.draws + 1 }
  else coreReset s

/-! The host's other moves. -/

/-- The engine made Running at `entry` with its stop outputs cleared (R106). -/
def State.startAt (s : State) (entry : Addr) : State :=
  { s with pc := entry, runState := .running, stopCause := .none, stopInfo := 0x00, stopAddr := 0x0000 }

/-- Start(entry): accepted when Halted, without effect otherwise (R106, R107), refused with no persistent store (R98). -/
def hostStart (entry : Addr) (s : State) : Host.Outcome State Fault Refusal :=
  if s.runState = .halted then
    if s.diskSize = 0 then .refused .storeUnavailable else .next (s.startAt entry)
  else .next s

/-- Load one byte before a run (R31, R109, R112); the memory answers OutOfBounds by changing nothing (R30). -/
def hostLoad (a : Addr) (v : Byte) (s : State) : Host.Outcome State Fault Refusal :=
  if s.runState = .running then .refused .hostLoadWhileRunning
  else .next (stateOr s (memWrite a v s))

/-- A collaborator made to answer its port, or to stop answering (R99, R112). -/
def setReady (p : Port) (b : Bool) (s : State) : State :=
  match p with
  | .disk => { s with diskReady := b }
  | .output => { s with outputReady := b }

/-- One move of the host (R112). -/
def hostMove (m : HostMove) (s : State) : Host.Outcome State Fault Refusal :=
  match m with
  | .pass => engineStep s
  | .reset => .next (hostReset s)
  | .start entry => hostStart entry s
  | .load a v => hostLoad a v s
  | .supply t => .next { s with input := s.input ++ [t] }
  | .setReady p b => .next (setReady p b s)
  | .stallMemory m => .next { s with memStall := m }

/-- The next thing that happens: the host's oldest move, or an engine step when the host has none (R61; log 11). -/
def machineStep (s : State) : Host.Outcome State Fault Refusal :=
  match s.host with
  | [] => engineStep s
  | m :: ms => hostMove m { s with host := ms }

/-- The host's load of one instruction at pc and Start there: Running, nothing pending, the memory answering, no host move before the
fetch (log 11). -/
def placeInstr (s : State) (nbits w : Nat) : State :=
  { s.startAt s.pc with
    mem := placeBytes (tableBytes nbits w) s.pc s.mem, memSize := max s.memSize Config.memSizeMin, wait := .none,
    memStall := none, host := [] }

end Sys2Proof.Machine
end

