-- ==== Sys2Proof/Machine/Step.lean ====
section
/-! DEFINITION. The step of the machine (40_engine.md R61, R62) and the placing of one instruction where it fetches. -/

namespace Sys2Proof.Machine

/-- One step: a host move, or one engine step. -/
def step (s : State) : Host.Outcome State Fault Refusal := machineStep s

/-- The state whose very next step fetches and runs the instruction whose bits are `w` (log 11). -/
def State.withFetchWord (s : State) (nbits w : Nat) : State := placeInstr s nbits w

end Sys2Proof.Machine
end

