-- ==== Sys2Proof/Safety.lean ====
section
/-! DEFINITION. What counts as an end of a run, as a legal state and as unchanged, in the terms the statements use
(70_reset_and_hazards.md R111; 10_state.md; 40_engine.md R73). -/

namespace Sys2Proof.Safety

open Sys2Proof.Machine

/-! Ends of a run (R111). -/

/-- Halted with cause HALT. -/
def NormalEnd (s : State) : Prop := s.runState = .halted ∧ s.stopCause = .halt

/-- Halted with cause UNRECOGNIZED_OPCODE or ILLEGAL_REGISTER. -/
def CleanErrorEnd (s : State) : Prop :=
  s.runState = .halted ∧ (s.stopCause = .unrecognizedOpcode ∨ s.stopCause = .illegalRegister)

/-- Aborted with cause OUT_OF_BOUNDS. -/
def AbortEnd (s : State) : Prop := s.runState = .aborted ∧ s.stopCause = .outOfBounds

/-! Legal states. -/

/-- Both stores are in canonical form and list no address outside their capacity (R29, R32). -/
def StoresOk (s : State) : Prop :=
  s.mem.wf = true ∧ s.disk.wf = true ∧ (∀ c ∈ s.mem, c.1 < s.memSize) ∧ (∀ c ∈ s.disk, c.1 < s.diskSize)

/-- The stop outputs fit the run state (R21, R61, R91 to R93, R105, R106). -/
def StatusOk (s : State) : Prop :=
  match s.runState with
  | .running => s.stopCause = .none ∧ s.stopInfo = 0x00 ∧ s.stopAddr = 0x0000
  | .halted =>
    s.stopAddr = 0x0000 ∧
    match s.stopCause with
    | .none | .halt => s.stopInfo = 0x00
    | .unrecognizedOpcode => opcodeOf s.stopInfo = 0xD ∨ opcodeOf s.stopInfo = 0xE
    | .illegalRegister => 3 < s.stopInfo.toNat
    | .outOfBounds => False
  | .aborted => s.stopCause = .outOfBounds ∧ s.stopInfo = 0x00

/-- A transaction waits only in a Running engine, under the instruction that makes it and after its earlier transactions (R22, R39, R71,
R76, R81 to R86). -/
def WaitOk (s : State) : Prop :=
  s.extra.length ≤ 2 ∧
  match s.wait with
  | .none => True
  | .fetchWord => s.runState = .running
  | .fetchExtra => s.runState = .running ∧ s.extra.length < extraCount s.ir
  | .store a v =>
    s.runState = .running ∧ ∃ n d r, s.fetched = .store n d ∧ regOfIndex (indexOfNibble n) = some r ∧ a = addr8Of d ∧ v = s.getReg r
  | .pushHigh t => s.runState = .running ∧ ∃ x, s.fetched = .call x t
  | .pushLow t => s.runState = .running ∧ (∃ x, s.fetched = .call x t) ∧ s.mem.read (s.sp + 1).toNat = highByte s.pc
  | .popLow => s.runState = .running ∧ ∃ x, s.fetched = .ret x
  | .popHigh lo => s.runState = .running ∧ (∃ x, s.fetched = .ret x) ∧ lo = s.mem.read s.sp.toNat
  | .inRead r => s.runState = .running ∧ ∃ n, s.fetched = .inp n ∧ regOfIndex (indexOfNibble n) = some r
  | .outWrite v => s.runState = .running ∧ ∃ n r, s.fetched = .out n ∧ regOfIndex (indexOfNibble n) = some r ∧ v = s.getReg r
  | .diskRead r a => s.runState = .running ∧ ∃ n, s.fetched = .diskRead n a ∧ regOfIndex (indexOfNibble n) = some r
  | .diskWrite a v =>
    s.runState = .running ∧ ∃ n r, s.fetched = .diskWrite n a ∧ regOfIndex (indexOfNibble n) = some r ∧ v = s.getReg r

/-! Unchanged parts. -/

/-- No general register differs. -/
def SameRegs (s t : State) : Prop := ∀ r, t.getReg r = s.getReg r

/-- No general register but `d` differs. -/
def SameRegsBut (d : Reg) (s t : State) : Prop := ∀ r, r ≠ d → t.getReg r = s.getReg r

/-- Run state, stop outputs, fetched bytes and the wait are the same. -/
def SameStatus (s t : State) : Prop :=
  t.runState = s.runState ∧ t.stopCause = s.stopCause ∧ t.stopInfo = s.stopInfo ∧ t.stopAddr = s.stopAddr ∧
  t.ir = s.ir ∧ t.extra = s.extra ∧ t.wait = s.wait

/-- Every byte of the memory store reads the same. -/
def SameMem (s t : State) : Prop := t.memSize = s.memSize ∧ ∀ a, t.mem.read a = s.mem.read a

/-- Every byte of the persistent store reads the same. -/
def SameDisk (s t : State) : Prop := t.diskSize = s.diskSize ∧ ∀ a, t.disk.read a = s.disk.read a

/-- What the ports answer, the host's moves and the count of free values are the same. -/
def SameHost (s t : State) : Prop :=
  t.memStall = s.memStall ∧ t.diskReady = s.diskReady ∧ t.outputReady = s.outputReady ∧ t.host = s.host ∧ t.draws = s.draws

/-- The channels hold the same. -/
def SameChannels (s t : State) : Prop := t.input = s.input ∧ t.output = s.output

/-- Nothing outside the core's registers, flag, pc and sp differs: stores, channels, status, host. -/
def SameOutside (s t : State) : Prop :=
  SameStatus s t ∧ SameMem s t ∧ SameDisk s t ∧ SameChannels s t ∧ SameHost s t

/-! What an instruction reads and writes, from the table of R14. -/

/-- The register the instruction writes when it runs in `s`: none where it stops or waits (R14, R19, R73, R83). -/
def destReg (i : Instr) (s : State) : Option Reg :=
  match i with
  | .load n _ => regOfIndex (indexOfNibble n)
  | .add n m | .sub n m => if (regOfIndex m).isSome then regOfIndex (indexOfNibble n) else none
  | .inp n => if s.input = [] then none else regOfIndex (indexOfNibble n)
  | .diskRead n a => if s.diskReady = true ∧ a.toNat < s.diskSize then regOfIndex (indexOfNibble n) else none
  | .nop _ | .store _ _ | .jmp _ _ | .jz _ _ | .call _ _ | .ret _ | .out _ | .diskWrite _ _ | .unrecognizedD _
  | .unrecognizedE _ | .halt _ => none

/-- The registers the instruction reads (R14). -/
def sourceRegs : Instr → List Reg
  | .store n _ | .out n | .diskWrite n _ => (regOfIndex (indexOfNibble n)).toList
  | .add n m | .sub n m => (regOfIndex (indexOfNibble n)).toList ++ (regOfIndex m).toList
  | .nop _ | .load _ _ | .jmp _ _ | .jz _ _ | .call _ _ | .ret _ | .inp _ | .diskRead _ _ | .unrecognizedD _
  | .unrecognizedE _ | .halt _ => []

/-! A state about to execute given bytes. -/

/-- The memory store holds the bytes at consecutive addresses from `a`, modulo 65536 (R38). -/
def BytesAt (m : Memory) : Addr → List Byte → Prop
  | _, [] => True
  | a, b :: bs => m.read a.toNat = b ∧ BytesAt m (a + 1) bs

/-- Running with nothing pending and no host move first, a conforming memory that answers all, and the bytes at pc (R62, R109). -/
def AboutTo (s : State) (bytes : List Byte) : Prop :=
  s.runState = .running ∧ s.wait = .none ∧ s.host = [] ∧ s.memStall = none ∧ 65536 ≤ s.memSize ∧ BytesAt s.mem s.pc bytes

/-- The state after the bytes of an instruction have been fetched (R65, R71 step 2). -/
def afterFetch (s : State) (w : Byte) (ex : List Byte) : State :=
  { s with pc := s.pc + 1 + BitVec.ofNat 16 ex.length, ir := w, extra := ex }

/-- `i` is the instruction that the engine fetches next, or whose fetch waits, all its later transactions still to come (R108); `u` is
the state once it is fetched. -/
def InProgress (s u : State) (i : Instr) : Prop := fetching s = some (.ok u) ∧ u.fetched = i

/-- The collaborator of the waiting transaction does not answer it (R22, R39, R46, R62, R83). -/
def Unanswered (s : State) : Prop :=
  match s.wait with
  | .none => False
  | .fetchWord => s.memAnswers .word = false
  | .fetchExtra => s.extra.length < extraCount s.ir ∧ s.memAnswers (extraAccess s.extra) = false
  | .store _ _ => s.memAnswers .store = false
  | .pushHigh _ => s.memAnswers .pushHigh = false
  | .pushLow _ => s.memAnswers .pushLow = false
  | .popLow => s.memAnswers .popLow = false
  | .popHigh _ => s.memAnswers .popHigh = false
  | .inRead _ => s.input = []
  | .outWrite _ => s.outputReady = false
  | .diskRead _ _ | .diskWrite _ _ => s.diskReady = false

end Sys2Proof.Safety
end

