-- ==== Sys2Proof/Certificates/Slice0/Obligations.lean ====
section
/-! DEFINITION. The statements about the machine, each from the rules of spec/ its docstring names. -/

open Sys2Proof Sys2Proof.Machine Sys2Proof.Safety

/-! Encoding (30_encoding.md). -/

/-- Every instruction, every operand at every value its encoding admits, is what the decoder reads from its bytes (R48 to R53). -/
def Obligations.DecodeOfEncodeIsTheInstruction : Prop :=
  ∀ (i : Instr) (rest : List Byte), decode (encode i ++ rest) = .ok (i, rest)

/-- Every byte sequence the decoder accepts is the encoding of what it reads: each encoding has one meaning (R53, R57). -/
def Obligations.EncodeOfDecodeIsTheBytes : Prop :=
  ∀ (bs : List Byte) (i : Instr) (rest : List Byte), decode bs = .ok (i, rest) → encode i ++ rest = bs

/-- R63: the opcode field of the word selects the instruction, for every word; the operand field is the operand nibble (R48). -/
def Obligations.OpcodeFieldSelectsTheInstruction : Prop :=
  ∀ (w b1 b2 : Byte) (rest : List Byte), ∃ i : Instr,
    decode (w :: b1 :: b2 :: rest) = .ok (i, (b1 :: b2 :: rest).drop i.extraBytes) ∧
    i.opcode = w.extractLsb' 4 4 ∧ i.operand = w.extractLsb' 0 4

/-- R54: the length by opcode, and the decoder refuses exactly the byte lists that hold no whole instruction. -/
def Obligations.LengthIsFixedByTheOpcode : Prop :=
  (∀ w : Byte, extraCount w =
    if opcodeOf w ∈ ([0x1, 0x2, 0x3, 0x4] : List Nibble) then 1
    else if opcodeOf w ∈ ([0x5, 0x6, 0x7, 0xB, 0xC] : List Nibble) then 2 else 0) ∧
  (∀ bs : List Byte, (∃ e, decode bs = .error e) ↔ bs = [] ∨ ∃ w rest, bs = w :: rest ∧ rest.length < extraCount w)

/-- A few words written out from 30_encoding.md R58 and 95_test_vectors.md. -/
def Obligations.KnownWordsDecode : Prop :=
  decode [0x10, 0x05] = .ok (.load 0 5, []) ∧ decode [0x22, 0x80] = .ok (.store 2 0x80, []) ∧
  decode [0x50, 0x34, 0x12] = .ok (.jmp 0 0x1234, []) ∧ decode [0xB3, 0x34, 0x12] = .ok (.diskRead 3 0x1234, []) ∧
  decode [0xFF] = .ok (.halt 0xF, [])

/-! The step (40_engine.md). -/

/-- A step runs the decoded instruction: from the bytes at pc, with pc past them, ir and the extra bytes holding them
(R49, R64, R65, R71). A host move `pass` before it changes nothing but the list of moves (log 11). -/
def Obligations.StepRunsTheDecodedInstruction : Prop :=
  ∀ (s : State) (w : Byte) (ex : List Byte) (i : Instr), AboutTo s (w :: ex) → decode (w :: ex) = .ok (i, []) →
    step s = exec i (afterFetch s w ex) ∧
    ∀ ms, step { s with host := .pass :: ms } = exec i { afterFetch s w ex with host := ms }

/-- A fetch beyond a memory that breaks its contract aborts at that address, with pc past the bytes fetched before it and nothing
else changed (R65, R93, R95; the abort is the spec's decision D13, that pc counts modulo 65536 its decision D8, log 17). That ir and the
extra bytes still hold the bytes fetched after the abort is the model's choice, log 3. -/
def Obligations.FetchOutOfBoundsAborts : Prop :=
  ∀ (s : State) (w b : Byte), s.runState = .running → s.wait = .none → s.host = [] → s.memStall = none →
    (s.memSize ≤ s.pc.toNat → step s = .next (s.raiseOutOfBounds s.pc)) ∧
    (s.pc.toNat < s.memSize → s.mem.read s.pc.toNat = w → 1 ≤ extraCount w → s.memSize ≤ (s.pc + 1).toNat →
      step s = .next ({ s with pc := s.pc + 1, ir := w, extra := [] }.raiseOutOfBounds (s.pc + 1))) ∧
    (s.pc.toNat < s.memSize → s.mem.read s.pc.toNat = w → extraCount w = 2 → (s.pc + 1).toNat < s.memSize →
      s.mem.read (s.pc + 1).toNat = b → s.memSize ≤ (s.pc + 2).toNat →
      step s = .next ({ s with pc := s.pc + 2, ir := w, extra := [b] }.raiseOutOfBounds (s.pc + 2)))

/-- Every instruction, in every state, answers a next state: it completes, waits or stops with its status set (R62, R94). That an abort is
a next state with its status set, and not the fault, is the model's reading, log 7; that an unanswered transaction answers a next state
which records the wait, where R62 says that it does not end in a single step, is the model's choice, log 9. -/
def Obligations.ExecAlwaysAnswersANextState : Prop :=
  ∀ (i : Instr) (s : State), ∃ t, exec i s = .next t

/-! Ports and primitives. -/

/-- The two store ports: in bounds a write is seen at its address and nowhere else, out of bounds nothing is written and the
address is reported (R30, R33, R39). -/
def Obligations.StorePortsReadBackWhatWasWritten : Prop :=
  ∀ (s : State) (a : Addr) (v : Byte),
    (a.toNat < s.memSize → ∃ t, memWrite a v s = .ok t ∧ memRead a t = .ok v ∧ (∀ b, b ≠ a → memRead b t = memRead b s) ∧
      SameRegs s t ∧ t.z = s.z ∧ t.pc = s.pc ∧ t.sp = s.sp ∧ SameStatus s t ∧ SameDisk s t ∧ SameChannels s t ∧ SameHost s t) ∧
    (s.memSize ≤ a.toNat → memWrite a v s = .error a ∧ memRead a s = .error a) ∧
    (a.toNat < s.diskSize → ∃ t, diskWrite a v s = .ok t ∧ diskRead a t = .ok v ∧ (∀ b, b ≠ a → diskRead b t = diskRead b s) ∧
      SameRegs s t ∧ t.z = s.z ∧ t.pc = s.pc ∧ t.sp = s.sp ∧ SameStatus s t ∧ SameMem s t ∧ SameChannels s t ∧ SameHost s t) ∧
    (s.diskSize ≤ a.toNat → diskWrite a v s = .error a ∧ diskRead a s = .error a)

/-- R68: Push writes the byte at zext_16(sp), then decrements sp modulo 256, and does nothing else. -/
def Obligations.PushWritesThenDecrements : Prop :=
  ∀ (s : State) (v : Byte), s.sp.toNat < s.memSize → ∃ t, push v s = .ok t ∧
    t.mem.read s.sp.toNat = v ∧ (∀ a, a ≠ s.sp.toNat → t.mem.read a = s.mem.read a) ∧ t.memSize = s.memSize ∧
    t.sp.toNat = (s.sp.toNat + 255) % 256 ∧
    SameRegs s t ∧ t.z = s.z ∧ t.pc = s.pc ∧ SameStatus s t ∧ SameDisk s t ∧ SameChannels s t ∧ SameHost s t

/-- R69: Pop increments sp modulo 256, then reads the byte at the new sp, and does nothing else. -/
def Obligations.PopIncrementsThenReads : Prop :=
  ∀ (s : State), (s.sp + 1).toNat < s.memSize → ∃ v t, pop s = .ok (v, t) ∧
    v = s.mem.read ((s.sp.toNat + 1) % 256) ∧ t.sp.toNat = (s.sp.toNat + 1) % 256 ∧
    SameRegs s t ∧ t.z = s.z ∧ t.pc = s.pc ∧ SameOutside s t

/-- Register indices 0 to 3 name x[0] to x[3], and no other index names a register (R13, R15). -/
def Obligations.RegisterIndicesName : Prop :=
  ∀ (k : Byte) (s : State),
    (3 < k.toNat ↔ regOfIndex k = none) ∧
    (∀ r, regOfIndex k = some r →
      s.getReg r = if k.toNat = 0 then s.x0 else if k.toNat = 1 then s.x1 else if k.toNat = 2 then s.x2 else s.x3)

/-! Data and ALU (41_data_alu.md). -/

/-- NOP has no effect; its word is any of 0x00 to 0x0F, and the step only moves pc past it (R74). That pc counts modulo 65536 is the
spec's decision D8 (log 17); that ir and no extra byte are still held after the NOP is the model's choice, log 3. -/
def Obligations.NopHasNoEffect : Prop :=
  (∀ (x : Nibble) (s : State), exec (.nop x) s = .next s) ∧
  (∀ (s : State) (w : Byte), w.toNat ≤ 0x0F → AboutTo s [w] →
    step s = .next { s with pc := s.pc + 1, ir := w, extra := [] })

/-- LOAD with a legal register: x[n] is imm8, Z says whether it is 0, nothing else changes (R75). -/
def Obligations.LoadWritesTheImmediate : Prop :=
  ∀ (n : Nibble) (imm8 : Byte) (s : State) (r : Reg), regOfIndex (indexOfNibble n) = some r →
    ∃ t, exec (.load n imm8) s = .next t ∧ t.getReg r = imm8 ∧ (t.z = true ↔ imm8 = 0) ∧
      SameRegsBut r s t ∧ t.pc = s.pc ∧ t.sp = s.sp ∧ SameOutside s t

/-- ADD and SUB with legal registers: the sum and the difference of the old values modulo 256, also when n = m, Z says whether the
result is 0, nothing else changes (R72, R77, R78). -/
def Obligations.AddAndSubAreModulo256 : Prop :=
  ∀ (n : Nibble) (m : Byte) (s : State) (i j : Reg), regOfIndex (indexOfNibble n) = some i → regOfIndex m = some j →
    (∃ t, exec (.add n m) s = .next t ∧ (t.getReg i).toNat = ((s.getReg i).toNat + (s.getReg j).toNat) % 256 ∧
      (t.z = true ↔ ((s.getReg i).toNat + (s.getReg j).toNat) % 256 = 0) ∧
      SameRegsBut i s t ∧ t.pc = s.pc ∧ t.sp = s.sp ∧ SameOutside s t) ∧
    (∃ t, exec (.sub n m) s = .next t ∧
      ((t.getReg i).toNat : Int) = ((s.getReg i).toNat - (s.getReg j).toNat : Int) % 256 ∧
      (t.z = true ↔ s.getReg i = s.getReg j) ∧
      SameRegsBut i s t ∧ t.pc = s.pc ∧ t.sp = s.sp ∧ SameOutside s t)

/-- STORE with a legal register and a memory that has the address and answers: memory[zext_16(addr8)] is x[n], every other byte and
everything else is as before (R76). -/
def Obligations.StoreWritesOneLowByte : Prop :=
  ∀ (n : Nibble) (d : Byte) (s : State) (r : Reg), regOfIndex (indexOfNibble n) = some r → (addr8Of d).toNat < s.memSize →
    s.memAnswers .store = true →
    ∃ t, exec (.store n d) s = .next t ∧ (addr8Of d).toNat = d.toNat ∧ t.mem.read (addr8Of d).toNat = s.getReg r ∧
      (∀ a, a ≠ (addr8Of d).toNat → t.mem.read a = s.mem.read a) ∧ t.memSize = s.memSize ∧
      SameRegs s t ∧ t.z = s.z ∧ t.pc = s.pc ∧ t.sp = s.sp ∧ SameStatus s t ∧ SameDisk s t ∧ SameChannels s t ∧ SameHost s t

/-! Control transfer (42_control_flow.md). -/

/-- JMP sets pc to the little-endian address of its two extra bytes, whatever its nibble, and changes nothing else (R79). That ir and
the extra bytes still hold the instruction after the jump is the model's choice, log 3. -/
def Obligations.JmpSetsPc : Prop :=
  (∀ (x : Nibble) (a : Addr) (s : State), exec (.jmp x a) s = .next { s with pc := a }) ∧
  (∀ (s : State) (w lo hi : Byte), opcodeOf w = 0x5 → AboutTo s [w, lo, hi] →
    ∃ t, step s = .next t ∧ t.pc.toNat = hi.toNat * 256 + lo.toNat ∧ t.ir = w ∧ t.extra = [lo, hi] ∧
      t = { afterFetch s w [lo, hi] with pc := t.pc })

/-- JZ jumps exactly when Z is set, else pc stays past its three bytes; nothing else changes (R80). That pc + 3 counts modulo 65536 is the
spec's decision D8 (log 17); that ir and the extra bytes still hold the instruction after the JZ is the model's choice, log 3. -/
def Obligations.JzJumpsExactlyWhenZ : Prop :=
  (∀ (x : Nibble) (a : Addr) (s : State), ∃ t, exec (.jz x a) s = .next t ∧ (s.z = true → t = { s with pc := a }) ∧
    (s.z = false → t = s)) ∧
  (∀ (s : State) (w lo hi : Byte), opcodeOf w = 0x6 → AboutTo s [w, lo, hi] →
    ∃ t, step s = .next t ∧ (s.z = true → t.pc.toNat = hi.toNat * 256 + lo.toNat) ∧ (s.z = false → t.pc = s.pc + 3) ∧
      t = { afterFetch s w [lo, hi] with pc := t.pc })

/-- CALL pushes the high byte, then the low byte, of the address after it, and jumps; sp is two less modulo 256, the bytes outside the
two pushed ones and everything else are as before (R81). That the address after it is taken modulo 65536 is the spec's decision D8 (log
17); that ir and the extra bytes still hold the instruction after the CALL is the model's choice, log 3. -/
def Obligations.CallPushesTheReturnAddress : Prop :=
  (∀ (x : Nibble) (a : Addr) (s : State), 256 ≤ s.memSize → s.memAnswers .pushHigh = true → s.memAnswers .pushLow = true →
    ∃ t, exec (.call x a) s = .next t ∧ t.pc = a ∧ t.sp = s.sp - 2 ∧
      t.mem.read (stackAddr s.sp).toNat = s.pc.extractLsb' 8 8 ∧
      t.mem.read (stackAddr (s.sp - 1)).toNat = s.pc.extractLsb' 0 8 ∧
      (∀ b, b ≠ (stackAddr s.sp).toNat → b ≠ (stackAddr (s.sp - 1)).toNat → t.mem.read b = s.mem.read b) ∧
      t.memSize = s.memSize ∧
      SameRegs s t ∧ t.z = s.z ∧ SameStatus s t ∧ SameDisk s t ∧ SameChannels s t ∧ SameHost s t) ∧
  (∀ (s : State) (w lo hi : Byte), opcodeOf w = 0x7 → AboutTo s [w, lo, hi] →
    ∃ t, step s = .next t ∧ t.pc.toNat = hi.toNat * 256 + lo.toNat ∧ t.sp = s.sp - 2 ∧
      t.mem.read (stackAddr s.sp).toNat = (s.pc + 3).extractLsb' 8 8 ∧
      t.mem.read (stackAddr (s.sp - 1)).toNat = (s.pc + 3).extractLsb' 0 8 ∧
      (∀ b, b ≠ (stackAddr s.sp).toNat → b ≠ (stackAddr (s.sp - 1)).toNat → t.mem.read b = s.mem.read b) ∧
      SameRegs s t ∧ t.z = s.z ∧ SameStatus (afterFetch s w [lo, hi]) t ∧ SameDisk s t ∧ SameChannels s t ∧ SameHost s t)

/-- RET pops the low byte, then the high byte, of pc; sp is two more modulo 256, and everything else is as before (R82). That ir still
holds the word and no extra byte after the RET is the model's choice, log 3. -/
def Obligations.RetPopsTheReturnAddress : Prop :=
  (∀ (x : Nibble) (s : State), 256 ≤ s.memSize → s.memAnswers .popLow = true → s.memAnswers .popHigh = true →
    ∃ t, exec (.ret x) s = .next t ∧
      t.pc.toNat = (s.mem.read (s.sp + 2).toNat).toNat * 256 + (s.mem.read (s.sp + 1).toNat).toNat ∧ t.sp = s.sp + 2 ∧
      SameRegs s t ∧ t.z = s.z ∧ SameOutside s t) ∧
  (∀ (s : State) (w : Byte), opcodeOf w = 0x8 → AboutTo s [w] →
    ∃ t, step s = .next t ∧
      t.pc.toNat = (s.mem.read (s.sp + 2).toNat).toNat * 256 + (s.mem.read (s.sp + 1).toNat).toNat ∧ t.sp = s.sp + 2 ∧
      SameRegs s t ∧ t.z = s.z ∧ SameOutside (afterFetch s w []) t)

/-- §8's symmetry: a RET executed next after a CALL brings pc back to the address after the CALL and sp to its value before it, for
every target, every sp and wherever the RET itself stands (R81, R82, 90_conflicts.md C4). -/
def Obligations.RetUndoesCall : Prop :=
  ∀ (x y : Nibble) (a : Addr) (s : State), 256 ≤ s.memSize → s.memStall = none →
    ∃ t, exec (.call x a) s = .next t ∧ t.pc = a ∧
      ∀ p : Addr, ∃ u, exec (.ret y) { t with pc := p } = .next u ∧ u.pc = s.pc ∧ u.sp = s.sp

/-! Channels and persistent store (43_io.md). -/

/-- IN with a legal register and a token waiting: x[n] is the token modulo 256, negative tokens included (the spec's decision D16), the
token is consumed, Z says whether the byte is 0, nothing else changes (R83). -/
def Obligations.InTakesOneToken : Prop :=
  ∀ (n : Nibble) (s : State) (r : Reg) (k : Int) (ks : List Int), regOfIndex (indexOfNibble n) = some r → s.input = k :: ks →
    ∃ t, exec (.inp n) s = .next t ∧ ((t.getReg r).toNat : Int) = k % 256 ∧ t.input = ks ∧ (t.z = true ↔ k % 256 = 0) ∧
      SameRegsBut r s t ∧ t.pc = s.pc ∧ t.sp = s.sp ∧ SameStatus s t ∧ SameMem s t ∧ SameDisk s t ∧ t.output = s.output ∧
      SameHost s t

/-- OUT with a legal register and a channel that takes values: x[n] is emitted after all earlier values, nothing else changes
(R84, R47). -/
def Obligations.OutEmitsTheRegister : Prop :=
  ∀ (n : Nibble) (s : State) (r : Reg), regOfIndex (indexOfNibble n) = some r → s.outputReady = true →
    ∃ t, exec (.out n) s = .next t ∧ t.output = s.output ++ [s.getReg r] ∧
      SameRegs s t ∧ t.z = s.z ∧ t.pc = s.pc ∧ t.sp = s.sp ∧ SameStatus s t ∧ SameMem s t ∧ SameDisk s t ∧ t.input = s.input ∧
      SameHost s t

/-- DISK_READ and DISK_WRITE with a legal register, a store that answers and an address below D: the byte moves, Z follows the byte
read, every other byte and everything else is as before (R85, R86). -/
def Obligations.DiskInstructionsMoveOneByte : Prop :=
  ∀ (n : Nibble) (a : Addr) (s : State) (r : Reg), regOfIndex (indexOfNibble n) = some r → s.diskReady = true →
    a.toNat < s.diskSize →
    (∃ t, exec (.diskRead n a) s = .next t ∧ t.getReg r = s.disk.read a.toNat ∧ (t.z = true ↔ s.disk.read a.toNat = 0) ∧
      SameRegsBut r s t ∧ t.pc = s.pc ∧ t.sp = s.sp ∧ SameOutside s t) ∧
    (∃ t, exec (.diskWrite n a) s = .next t ∧ t.disk.read a.toNat = s.getReg r ∧
      (∀ b, b ≠ a.toNat → t.disk.read b = s.disk.read b) ∧ t.diskSize = s.diskSize ∧
      SameRegs s t ∧ t.z = s.z ∧ t.pc = s.pc ∧ t.sp = s.sp ∧ SameStatus s t ∧ SameMem s t ∧ SameChannels s t ∧ SameHost s t)

/-- DISK_READ and DISK_WRITE with a legal register at an address at or above D: Aborted, with that address in stop_addr and
nothing else changed (R85, R86, R93; the abort and the parameter D are the spec's decisions D13 and D15). -/
def Obligations.DiskOutOfBoundsAborts : Prop :=
  ∀ (n : Nibble) (a : Addr) (s : State) (r : Reg), regOfIndex (indexOfNibble n) = some r → s.diskReady = true →
    s.diskSize ≤ a.toNat →
    ∃ t, exec (.diskRead n a) s = .next t ∧ exec (.diskWrite n a) s = .next t ∧
      AbortEnd t ∧ t.stopInfo = 0 ∧ t.stopAddr = a ∧ t.ir = s.ir ∧ t.extra = s.extra ∧ t.wait = s.wait ∧
      SameRegs s t ∧ t.z = s.z ∧ t.pc = s.pc ∧ t.sp = s.sp ∧ SameMem s t ∧ SameDisk s t ∧ SameChannels s t ∧ SameHost s t

/-- §8's durability: the byte a DISK_WRITE stored is what a DISK_READ of that address gives in any later state with the same
persistent store, after Reset, Start or in another machine instance (R34, R35). -/
def Obligations.DiskWriteIsDurable : Prop :=
  ∀ (n m : Nibble) (a : Addr) (s t u : State) (r q : Reg), regOfIndex (indexOfNibble n) = some r →
    regOfIndex (indexOfNibble m) = some q → s.diskReady = true → a.toNat < s.diskSize → exec (.diskWrite n a) s = .next t →
    u.disk = t.disk → u.diskSize = t.diskSize → u.diskReady = true →
    ∃ v, exec (.diskRead m a) u = .next v ∧ v.getReg q = s.getReg r ∧ (v.z = true ↔ s.getReg r = 0)

/-- An instruction whose port does not answer, or whose channel holds no token, waits: only the wait is recorded (R22, R83, R99). What is
recorded, the register, the byte and the address of the transaction, is the model's choice, log 9; that a ready flag says whether the
persistent store or the output channel answers is log 10. -/
def Obligations.UnansweredPortsMakeTheEngineWait : Prop :=
  ∀ (n : Nibble) (a : Addr) (s : State) (r : Reg), regOfIndex (indexOfNibble n) = some r →
    (s.input = [] → exec (.inp n) s = .next { s with wait := .inRead r }) ∧
    (s.outputReady = false → exec (.out n) s = .next { s with wait := .outWrite (s.getReg r) }) ∧
    (s.diskReady = false → exec (.diskRead n a) s = .next { s with wait := .diskRead r a } ∧
      exec (.diskWrite n a) s = .next { s with wait := .diskWrite a (s.getReg r) })

/-- While the collaborator of the waiting transaction does not answer, a step leaves the whole state as it is (R62, R83, R116). The form of
the wait and of the collaborators' answers is the model's choice, logs 9 and 10. -/
def Obligations.AWaitChangesNothing : Prop :=
  ∀ s : State, s.runState = .running → s.host = [] → Unanswered s → step s = .next s

/-- Once the collaborator answers, the wait ends as the instruction would run then, or as the rest of it where a push or a pop is made
already (R39, R71, R76, R81 to R86; the form of the wait is log 9). -/
def Obligations.AWaitEndsAsItsInstruction : Prop :=
  ∀ (s : State) (n : Nibble) (r : Reg) (a : Addr), s.runState = .running → s.host = [] → regOfIndex (indexOfNibble n) = some r →
    (s.wait = .inRead r → step s = exec (.inp n) { s with wait := .none }) ∧
    (s.wait = .outWrite (s.getReg r) → step s = exec (.out n) { s with wait := .none }) ∧
    (s.wait = .diskRead r a → step s = exec (.diskRead n a) { s with wait := .none }) ∧
    (s.wait = .diskWrite a (s.getReg r) → step s = exec (.diskWrite n a) { s with wait := .none }) ∧
    (∀ d, s.wait = .store (addr8Of d) (s.getReg r) → step s = exec (.store n d) { s with wait := .none }) ∧
    (∀ x, s.wait = .pushHigh a → step s = exec (.call x a) { s with wait := .none }) ∧
    (s.wait = .pushLow a → s.memAnswers .pushLow = true → s.sp.toNat < s.memSize →
      ∃ u, push (lowByte s.pc) { s with wait := .none } = .ok u ∧ step s = .next { u with pc := a }) ∧
    (∀ x, s.wait = .popLow → step s = exec (.ret x) { s with wait := .none }) ∧
    (∀ lo, s.wait = .popHigh lo → s.memAnswers .popHigh = true → (s.sp + 1).toNat < s.memSize →
      step s = .next { s with sp := s.sp + 1, pc := addr16Of lo (s.mem.read (s.sp + 1).toNat), wait := .none })

/-! Halts and stops (44_halt.md, 60_exceptions.md). -/

/-- HALT: Halted with cause HALT, info 0x00 and addr 0x0000, everything else as before (R87, R21; the report's form is the spec's
decision D12, and stop_addr is log 26). -/
def Obligations.HaltStopsNormally : Prop :=
  ∀ (x : Nibble) (s : State), ∃ t, exec (.halt x) s = .next t ∧ NormalEnd t ∧ t.stopInfo = 0 ∧ t.stopAddr = 0 ∧
    t = { s with runState := t.runState, stopCause := t.stopCause, stopInfo := t.stopInfo, stopAddr := t.stopAddr }

/-- Opcodes 0xD and 0xE: Halted with cause UNRECOGNIZED_OPCODE and the whole word in stop_info; at the step, pc is one past the word,
no other byte is fetched and nothing else changes (R88, R91; the length, the report's form and the wrap of pc are the spec's decisions
D11, D12 and D8, log 17). That ir still holds the word, and no extra byte is held, after the stop is the model's choice, log 3. -/
def Obligations.UnrecognizedOpcodesHaltAndReport : Prop :=
  (∀ (x : Nibble) (s : State),
    exec (.unrecognizedD x) s = .next (s.stop .halted .unrecognizedOpcode (BitVec.ofNat 8 (0xD0 + x.toNat)) 0) ∧
    exec (.unrecognizedE x) s = .next (s.stop .halted .unrecognizedOpcode (BitVec.ofNat 8 (0xE0 + x.toNat)) 0)) ∧
  (∀ (s : State) (w : Byte), 0xD0 ≤ w.toNat → w.toNat ≤ 0xEF → AboutTo s [w] →
    step s = .next ({ s with pc := s.pc + 1, ir := w, extra := [] }.stop .halted .unrecognizedOpcode w 0))

/-- An instruction with a register index above 3 stops with the first such index, n before m, whatever else would have happened:
Halted, ILLEGAL_REGISTER, nothing else changed, no token consumed, no value emitted, no store accessed (R15, R71, R92, R95; the
spec's decisions D9, D10 and D26). -/
def Obligations.IllegalRegisterStops : Prop :=
  ∀ (i : Instr) (s : State) (k : Byte), i.firstIllegal = some k →
    exec i s = .next { s with runState := .halted, stopCause := .illegalRegister, stopInfo := k, stopAddr := 0 }

/-- R56: exactly the illegal encodings make a Running engine end with a clean error, and they always do. -/
def Obligations.CleanErrorsAreExactlyIllegalEncodings : Prop :=
  ∀ (i : Instr) (s t : State), s.runState = .running → exec i s = .next t → (CleanErrorEnd t ↔ i.wellFormed = false)

/-- With a conforming memory only DISK_READ and DISK_WRITE at or above D abort (R30, R33, R89). -/
def Obligations.OnlyDiskAccessesAbort : Prop :=
  ∀ (i : Instr) (s t : State), 65536 ≤ s.memSize → s.runState = .running → exec i s = .next t →
    (t.runState = .aborted ↔
      ∃ n a, (i = .diskRead n a ∨ i = .diskWrite n a) ∧ i.firstIllegal = none ∧ s.diskReady = true ∧ s.diskSize ≤ a.toNat)

/-- A stopped instruction writes no register, flag, persistent-store byte or channel and leaves pc past its bytes; with a conforming
memory it leaves memory and sp too (R73, R94). -/
def Obligations.AStopWritesNothingElse : Prop :=
  ∀ (i : Instr) (s t : State), s.runState = .running → exec i s = .next t → t.runState ≠ .running →
    SameRegs s t ∧ t.z = s.z ∧ t.pc = s.pc ∧ SameDisk s t ∧ SameChannels s t ∧ SameHost s t ∧ t.wait = s.wait ∧
    (65536 ≤ s.memSize → SameMem s t ∧ t.sp = s.sp)

/-- The only ways a step takes the engine out of Running (R89): HALT, an unrecognized opcode, an illegal register, an out-of-bounds
access, and Reset. WaitOk is an invariant of the model, stated below. That the instruction can still be read from ir and the extra bytes
after it has stopped is the model's choice, log 3. -/
def Obligations.TheFiveWaysOutOfRunning : Prop :=
  ∀ s t : State, WaitOk s → s.runState = .running → step s = .next t → t.runState ≠ .running →
    (NormalEnd t ∧ ∃ x, t.fetched = .halt x) ∨
    (t.runState = .halted ∧ t.stopCause = .unrecognizedOpcode ∧ t.stopInfo = t.ir ∧ (opcodeOf t.ir = 0xD ∨ opcodeOf t.ir = 0xE)) ∨
    (t.runState = .halted ∧ t.stopCause = .illegalRegister ∧ t.fetched.firstIllegal = some t.stopInfo) ∨
    (AbortEnd t ∧ (s.memSize ≤ t.stopAddr.toNat ∨
      s.diskSize ≤ t.stopAddr.toNat ∧ ∃ n, t.fetched = .diskRead n t.stopAddr ∨ t.fetched = .diskWrite n t.stopAddr)) ∨
    (t.runState = .halted ∧ t.stopCause = .none ∧ ∃ ms, s.host = .reset :: ms)

/-! Whole-machine rules. -/

/-- R19: Z is written by LOAD, ADD, SUB, IN and DISK_READ only, from the byte they leave in x[n], and by no stop or wait; only JZ
reads it: no other instruction's outcome depends on it. -/
def Obligations.ZeroFlagRule : Prop :=
  (∀ (i : Instr) (s t : State), exec i s = .next t →
    (∀ r, destReg i s = some r → (t.z = true ↔ t.getReg r = 0)) ∧ (destReg i s = none → t.z = s.z)) ∧
  (∀ (i : Instr) (s t : State) (b : Bool), (∀ x a, i ≠ .jz x a) → exec i s = .next t →
    ((∃ r, destReg i s = some r) → exec i { s with z := b } = .next t) ∧
    (destReg i s = none → exec i { s with z := b } = .next { t with z := b }))

/-- The table of R14: an instruction writes no register but its destination, and reads no register but its sources: a change of any
other register shows nowhere in its outcome. -/
def Obligations.RegisterReadsAndWrites : Prop :=
  (∀ (i : Instr) (s t : State), exec i s = .next t → ∀ r, destReg i s ≠ some r → t.getReg r = s.getReg r) ∧
  (∀ (i : Instr) (s t : State) (r : Reg) (v : Byte), r ∉ sourceRegs i → exec i s = .next t →
    (destReg i s = some r → exec i (s.setReg r v) = .next t) ∧
    (destReg i s ≠ some r → exec i (s.setReg r v) = .next (t.setReg r v)))

/-- Only CALL and RET change sp, by two modulo 256 once both their transactions are made (R18). -/
def Obligations.OnlyCallAndRetMoveSp : Prop :=
  (∀ (i : Instr) (s t : State), (∀ x a, i ≠ .call x a) → (∀ x, i ≠ .ret x) → exec i s = .next t → t.sp = s.sp) ∧
  (∀ (i : Instr) (s t : State), 256 ≤ s.memSize → s.memStall = none → exec i s = .next t →
    t.sp.toNat = match i with
      | .call _ _ => (s.sp.toNat + 254) % 256
      | .ret _ => (s.sp.toNat + 2) % 256
      | _ => s.sp.toNat)

/-- Only JMP, a taken JZ, CALL and RET overwrite pc; every other instruction leaves it past its bytes (R16, R71). -/
def Obligations.OnlyControlTransfersSetPc : Prop :=
  (∀ (i : Instr) (s t : State), (∀ x a, i ≠ .call x a) → (∀ x, i ≠ .ret x) → exec i s = .next t →
    t.pc = match i with
      | .jmp _ a => a
      | .jz _ a => if s.z then a else s.pc
      | _ => s.pc) ∧
  (∀ (i : Instr) (s t : State), 256 ≤ s.memSize → s.memStall = none → exec i s = .next t →
    t.pc = match i with
      | .jmp _ a | .call _ a => a
      | .jz _ a => if s.z then a else s.pc
      | .ret _ => addr16Of (s.mem.read (s.sp + 1).toNat) (s.mem.read (s.sp + 2).toNat)
      | _ => s.pc)

/-- No instruction writes memory at 0x0100 or above, or a persistent-store byte at 65536 or above, or changes a capacity; only STORE and
CALL write memory, only DISK_WRITE the persistent store (R28, R32, R40). -/
def Obligations.WritesStayInTheirWindows : Prop :=
  ∀ (i : Instr) (s t : State), exec i s = .next t →
    t.memSize = s.memSize ∧ t.diskSize = s.diskSize ∧
    (∀ a, 256 ≤ a → t.mem.read a = s.mem.read a) ∧ (∀ a, 65536 ≤ a → t.disk.read a = s.disk.read a) ∧
    ((∀ n d, i ≠ .store n d) → (∀ x a, i ≠ .call x a) → t.mem = s.mem) ∧ ((∀ n a, i ≠ .diskWrite n a) → t.disk = s.disk)

/-- Each instruction consumes at most one token, and only IN; each emits at most one value, and only OUT (R46, R47). -/
def Obligations.ChannelsMoveOneValueAtATime : Prop :=
  ∀ (i : Instr) (s t : State), exec i s = .next t →
    (t.input = s.input ∨ ∃ n, i = .inp n ∧ t.input = s.input.drop 1) ∧
    (t.output = s.output ∨ ∃ n r, i = .out n ∧ regOfIndex (indexOfNibble n) = some r ∧ t.output = s.output ++ [s.getReg r])

/-- No instruction reads the status outputs: changing them changes nothing but themselves, and a stop overwrites them (R21). -/
def Obligations.StatusOutputsAreNotRead : Prop :=
  ∀ (i : Instr) (s t : State) (c : StopCause) (k : Byte) (a : Addr), s.runState = .running → exec i s = .next t →
    (t.runState = .running → exec i { s with stopCause := c, stopInfo := k, stopAddr := a } =
      .next { t with stopCause := c, stopInfo := k, stopAddr := a }) ∧
    (t.runState ≠ .running → exec i { s with stopCause := c, stopInfo := k, stopAddr := a } = .next t)

/-- A byte that STORE writes is what the very next fetch at that address reads (R44). -/
def Obligations.AStoreIsSeenByTheNextFetch : Prop :=
  ∀ (n : Nibble) (d : Byte) (s t : State) (r : Reg), regOfIndex (indexOfNibble n) = some r → (addr8Of d).toNat < s.memSize →
    s.memAnswers .store = true → s.memAnswers .word = true → exec (.store n d) s = .next t → t.pc = addr8Of d →
    fetchWord t = .ok { t with pc := t.pc + 1, ir := s.getReg r, extra := [] }

/-! Reset, Start and the host (70_reset_and_hazards.md). -/

/-- Reset of an engine that is not Running: every register and status output at the value of R24, nothing pending, the stores, the
channels and the collaborators untouched (R105; the values are the spec's decisions D1 to D5, ir's is log 2). -/
def Obligations.ResetReachesTheResetState : Prop :=
  ∀ (s : State) (ms : List HostMove), s.host = .reset :: ms → s.runState ≠ .running →
    ∃ t, step s = .next t ∧ (∀ r, t.getReg r = 0) ∧ t.pc = 0 ∧ t.sp = 0xFF ∧ t.z = false ∧ t.runState = .halted ∧
      t.stopCause = .none ∧ t.stopInfo = 0 ∧ t.stopAddr = 0 ∧ t.ir = 0 ∧ t.extra = [] ∧ t.wait = .none ∧
      SameMem s t ∧ SameDisk s t ∧ SameChannels s t ∧ t.memStall = s.memStall ∧ t.diskReady = s.diskReady ∧
      t.outputReady = s.outputReady ∧ t.host = ms

/-- Reset while Running gives the same core state, and abandons the instruction in progress: a memory byte, a persistent-store byte, a
token or a value differs only as that instruction's own transactions would have made it, and a memory byte only where the memory answers
the write: one not yet made stays unmade (R108, D27). The values are the spec's decisions D1 to D5, ir's 0x00 and the empty list of extra
bytes are the model's choice, log 2. Which of the transactions took effect is a free value, log 12, and the statement holds for each of
its values; the form of the wait and of the memory's answers is the model's, logs 9 and 10. -/
def Obligations.ResetWhileRunningAbandonsTheInstruction : Prop :=
  ∀ (s : State) (ms : List HostMove), s.host = .reset :: ms → s.runState = .running →
    ∃ t, step s = .next t ∧ (∀ r, t.getReg r = 0) ∧ t.pc = 0 ∧ t.sp = 0xFF ∧ t.z = false ∧ t.runState = .halted ∧
      t.stopCause = .none ∧ t.stopInfo = 0 ∧ t.stopAddr = 0 ∧ t.ir = 0 ∧ t.extra = [] ∧ t.wait = .none ∧
      t.memSize = s.memSize ∧ t.diskSize = s.diskSize ∧ t.host = ms ∧
      (∀ b, t.mem.read b = s.mem.read b ∨
        (∃ u n d r, InProgress s u (.store n d) ∧ regOfIndex (indexOfNibble n) = some r ∧ s.memAnswers .store = true ∧
          b = d.toNat ∧ t.mem.read b = s.getReg r) ∨
        (∃ u x a, InProgress s u (.call x a) ∧ (s.wait = .none → u.pc = s.pc + 3) ∧ s.memAnswers .pushHigh = true ∧
          (b = s.sp.toNat ∧ t.mem.read b = highByte u.pc ∨
            s.memAnswers .pushLow = true ∧ b = (s.sp - 1).toNat ∧ t.mem.read b = lowByte u.pc)) ∨
        (∃ a v, s.wait = .store a v ∧ s.memAnswers .store = true ∧ b = a.toNat ∧ t.mem.read b = v) ∨
        (∃ a, s.wait = .pushHigh a ∧ s.memAnswers .pushHigh = true ∧
          (b = s.sp.toNat ∧ t.mem.read b = highByte s.pc ∨
            s.memAnswers .pushLow = true ∧ b = (s.sp - 1).toNat ∧ t.mem.read b = lowByte s.pc)) ∨
        (∃ a, s.wait = .pushLow a ∧ s.memAnswers .pushLow = true ∧ b = s.sp.toNat ∧ t.mem.read b = lowByte s.pc)) ∧
      (∀ b, t.disk.read b = s.disk.read b ∨
        (∃ a v, s.wait = .diskWrite a v ∧ b = a.toNat ∧ t.disk.read b = v) ∨
        (∃ u n a r, InProgress s u (.diskWrite n a) ∧ regOfIndex (indexOfNibble n) = some r ∧ b = a.toNat ∧
          t.disk.read b = s.getReg r)) ∧
      (t.input = s.input ∨ t.input = s.input.drop 1 ∧ ((∃ r, s.wait = .inRead r) ∨ ∃ u n, InProgress s u (.inp n))) ∧
      (t.output = s.output ∨ ∃ v, t.output = s.output ++ [v] ∧ (s.wait = .outWrite v ∨
        ∃ u n r, InProgress s u (.out n) ∧ regOfIndex (indexOfNibble n) = some r ∧ v = s.getReg r))

/-- Start(entry) when Halted, with a persistent store open: Running at entry, the stop outputs cleared, everything else kept (R106, R25;
that x, sp and Z are kept is the spec's decision D6). -/
def Obligations.StartRunsAtTheEntry : Prop :=
  ∀ (s : State) (entry : Addr) (ms : List HostMove), s.host = .start entry :: ms → s.runState = .halted → 0 < s.diskSize →
    step s = .next { s with pc := entry, runState := .running, stopCause := .none, stopInfo := 0, stopAddr := 0, host := ms }

/-- Start has no effect while Running or Aborted (R107; the spec's decisions D7 and D13). -/
def Obligations.StartIsIgnoredUnlessHalted : Prop :=
  ∀ (s : State) (entry : Addr) (ms : List HostMove), s.host = .start entry :: ms → s.runState ≠ .halted →
    step s = .next { s with host := ms }

/-- The two refusals of the host: a Start with no persistent store open (R98), and a load while the engine is Running (R112, D21). -/
def Obligations.TheHostIsRefusedByName : Prop :=
  ∀ (s : State) (ms : List HostMove),
    (∀ entry, s.host = .start entry :: ms → s.runState = .halted → s.diskSize = 0 → step s = .refused .storeUnavailable) ∧
    (∀ a v, s.host = .load a v :: ms → s.runState = .running → step s = .refused .hostLoadWhileRunning)

/-- The host's other moves: a load before a run writes one byte of memory, a token is offered last, a port is made to answer or not, the
memory to leave one transaction unanswered or none;
no register, flag, pc, sp or status changes (R26, R31, R46, R112). -/
def Obligations.HostMovesKeepTheCore : Prop :=
  ∀ (s : State) (ms : List HostMove),
    (∀ a v, s.host = .load a v :: ms → s.runState ≠ .running → a.toNat < s.memSize →
      ∃ t, step s = .next t ∧ t.mem.read a.toNat = v ∧ (∀ b, b ≠ a.toNat → t.mem.read b = s.mem.read b) ∧
        t = { s with mem := t.mem, host := ms }) ∧
    (∀ k, s.host = .supply k :: ms → step s = .next { s with input := s.input ++ [k], host := ms }) ∧
    (∀ p b, s.host = .setReady p b :: ms → ∃ t, step s = .next t ∧
      t = { s with diskReady := t.diskReady, outputReady := t.outputReady, host := ms } ∧
      t.diskReady = (if p = .disk then b else s.diskReady) ∧ t.outputReady = (if p = .output then b else s.outputReady)) ∧
    (∀ m, s.host = .stallMemory m :: ms → step s = .next { s with memStall := m, host := ms })

/-- With no host move to come, a Halted machine stays as it is, and an Aborted one is a fault that names the address (R20, R93; logs 7
and 8). -/
def Obligations.AStoppedEngineRunsNothing : Prop :=
  ∀ s : State, s.host = [] →
    (s.runState = .halted → step s = .next s) ∧ (s.runState = .aborted → step s = .fault (.aborted s.stopAddr))

/-- A step faults only from Aborted, with the fault that names the address; a Running engine whose host's next move is not a load always
has a next state (R61, R93). That a step from Aborted is the fault, and that the step that aborts is a next state, is the model's reading,
log 7; that a host's load while Running is refused is stated in TheHostIsRefusedByName (log 14). -/
def Obligations.ARunningEngineNeverFaults : Prop :=
  ∀ s : State,
    (∀ f, step s = .fault f → s.runState = .aborted ∧ f = .aborted s.stopAddr) ∧
    (s.runState = .running → (∀ a v ms, s.host ≠ .load a v :: ms) → ∃ t, step s = .next t)

/-! Invariants: what every step keeps, from every state that has it. -/

/-- Both stores stay in canonical form and within their capacities, whatever a step does (R29, R30, R32, R33). -/
def Obligations.EveryStepKeepsTheStoresCanonical : Prop :=
  ∀ s t : State, StoresOk s → step s = .next t → StoresOk t

/-- The stop outputs always fit the run state: Running shows NONE, Halted a halt cause with its information, Aborted OUT_OF_BOUNDS
(R21, R61, R91 to R93, R105, R106). -/
def Obligations.EveryStepKeepsTheStatusConsistent : Prop :=
  ∀ s t : State, StatusOk s → step s = .next t → StatusOk t

/-- A transaction waits only in a Running engine, under the instruction that makes it, and at most two extra bytes are held
(R22, R39, R49, R62, R76, R81 to R86). The form of the wait, and that ir and the extra bytes are kept, are the model's choices, logs 9
and 3. -/
def Obligations.EveryStepKeepsTheWaitConsistent : Prop :=
  ∀ s t : State, WaitOk s → step s = .next t → WaitOk t

/-- The three invariants hold at reset. -/
def Obligations.ResetMeetsTheInvariants : Prop :=
  StoresOk State.reset ∧ StatusOk State.reset ∧ WaitOk State.reset

/-! Memory transactions that the memory does not answer, or whose address it lacks. -/

/-- A fetch that the memory does not answer: the engine keeps what it has fetched and waits with that fetch (R22, R39, R62; the form of
the wait and of the memory's answers is the model's, logs 9 and 10). -/
def Obligations.UnansweredFetchesMakeTheEngineWait : Prop :=
  ∀ (s : State) (w b : Byte), s.runState = .running → s.wait = .none → s.host = [] →
    (s.memAnswers .word = false → step s = .next { s with wait := .fetchWord }) ∧
    (s.memStall = some .extraFirst → s.pc.toNat < s.memSize → s.mem.read s.pc.toNat = w → 1 ≤ extraCount w →
      step s = .next { s with pc := s.pc + 1, ir := w, extra := [], wait := .fetchExtra }) ∧
    (s.memStall = some .extraSecond → s.pc.toNat < s.memSize → s.mem.read s.pc.toNat = w → extraCount w = 2 →
      (s.pc + 1).toNat < s.memSize → s.mem.read (s.pc + 1).toNat = b →
      step s = .next { s with pc := s.pc + 2, ir := w, extra := [b], wait := .fetchExtra })

/-- Once the memory answers, a fetch that waited goes on: from the word, as a step at that pc; from an extra byte, with the bytes
missing, as the instruction all of whose bytes are fetched (R39, R62, R71; the form of the wait is log 9). -/
def Obligations.AFetchWaitEndsAsItsInstruction : Prop :=
  (∀ s : State, s.runState = .running → s.host = [] → s.wait = .fetchWord → step s = step { s with wait := .none }) ∧
  (∀ (s : State) (missing : List Byte) (i : Instr), s.runState = .running → s.host = [] → s.wait = .fetchExtra →
    s.memStall = none → 65536 ≤ s.memSize → BytesAt s.mem s.pc missing → decode (s.ir :: s.extra ++ missing) = .ok (i, []) →
    step s = exec i { s with pc := s.pc + BitVec.ofNat 16 missing.length, extra := s.extra ++ missing, wait := .none })

/-- STORE, CALL and RET whose memory transaction is not answered: what the instruction did before it stands, and only the wait is
recorded beside it (R22, R39, R62, R71; the form of the wait is log 9). -/
def Obligations.UnansweredMemoryMakesTheInstructionWait : Prop :=
  ∀ (x : Nibble) (a : Addr) (s : State),
    (∀ n d r, regOfIndex (indexOfNibble n) = some r → s.memAnswers .store = false →
      exec (.store n d) s = .next { s with wait := .store (addr8Of d) (s.getReg r) }) ∧
    (s.memAnswers .pushHigh = false → exec (.call x a) s = .next { s with wait := .pushHigh a }) ∧
    (s.memStall = some .pushLow → s.sp.toNat < s.memSize → ∃ u, push (highByte s.pc) s = .ok u ∧
      exec (.call x a) s = .next { u with wait := .pushLow a }) ∧
    (s.memAnswers .popLow = false → exec (.ret x) s = .next { s with wait := .popLow }) ∧
    (s.memStall = some .popHigh → (s.sp + 1).toNat < s.memSize →
      exec (.ret x) s = .next { s with sp := s.sp + 1, wait := .popHigh (s.mem.read (s.sp + 1).toNat) })

/-- A memory that breaks its contract: STORE, CALL and RET abort at the address it lacks, keeping the push or pop completed before and
nothing else (R73, R76, R81, R82, R93; the abort is the spec's decision D13, sp at a failing pop is log 18). -/
def Obligations.MemoryOutOfBoundsAborts : Prop :=
  ∀ (x : Nibble) (a : Addr) (s : State), s.memStall = none →
    (∀ n d r, regOfIndex (indexOfNibble n) = some r → s.memSize ≤ (addr8Of d).toNat →
      exec (.store n d) s = .next (s.raiseOutOfBounds (addr8Of d))) ∧
    (s.memSize ≤ s.sp.toNat → exec (.call x a) s = .next (s.raiseOutOfBounds (stackAddr s.sp))) ∧
    (s.sp.toNat < s.memSize → s.memSize ≤ (s.sp - 1).toNat → ∃ u, push (highByte s.pc) s = .ok u ∧
      exec (.call x a) s = .next (u.raiseOutOfBounds (stackAddr (s.sp - 1)))) ∧
    (s.memSize ≤ (s.sp + 1).toNat → exec (.ret x) s = .next (s.raiseOutOfBounds (stackAddr (s.sp + 1)))) ∧
    ((s.sp + 1).toNat < s.memSize → s.memSize ≤ (s.sp + 2).toNat →
      exec (.ret x) s = .next ({ s with sp := s.sp + 1 }.raiseOutOfBounds (stackAddr (s.sp + 2))))
end

