-- ==== Sys2Proof/Laws/Memory.lean ====
section
/-! SUPPORT. The laws of a byte store: read after write, and every operation keeps the canonical form and the bound on addresses. -/

namespace Sys2Proof.Machine

theorem Memory.read_erase_self (m : Memory) (a : Nat) : (Memory.erase m a).read a = Config.unwritten := by
  induction m with
  | nil => rfl
  | cons c m ih =>
    by_cases h : c.1 = a
    · simpa [Memory.erase, h] using ih
    · have : Memory.erase (c :: m) a = c :: Memory.erase m a := by simp [Memory.erase, h]
      simp [this, Memory.read, h, ih]

theorem Memory.read_erase_ne (m : Memory) {a b : Nat} (hab : b ≠ a) : (Memory.erase m a).read b = m.read b := by
  induction m with
  | nil => rfl
  | cons c m ih =>
    by_cases h : c.1 = a
    · have : Memory.erase (c :: m) a = Memory.erase m a := by simp [Memory.erase, h]
      rw [this, ih]
      have : ¬ c.1 = b := by omega
      simp [Memory.read, this]
    · have : Memory.erase (c :: m) a = c :: Memory.erase m a := by simp [Memory.erase, h]
      simp [this, Memory.read, ih]

theorem Memory.read_insert_self (m : Memory) (a : Nat) (v : Byte) (h : ∀ c ∈ m, c.1 ≠ a) :
    (Memory.insert (a, v) m).read a = v := by
  induction m with
  | nil => simp [Memory.insert, Memory.read]
  | cons c m ih =>
    unfold Memory.insert
    split
    · simp [Memory.read]
    · have hc : ¬ c.1 = a := h c (by simp)
      simp [Memory.read, hc, ih (fun d hd => h d (by simp [hd]))]

theorem Memory.read_insert_ne (m : Memory) {a b : Nat} (v : Byte) (h : b ≠ a) :
    (Memory.insert (a, v) m).read b = m.read b := by
  have hab : ¬ a = b := fun e => h e.symm
  induction m with
  | nil => simp [Memory.insert, Memory.read, hab]
  | cons c m ih =>
    unfold Memory.insert
    split
    · simp [Memory.read, hab]
    · simp [Memory.read, ih]

theorem Memory.mem_erase {m : Memory} {a : Nat} {c : Host.Cell} : c ∈ Memory.erase m a ↔ c ∈ m ∧ c.1 ≠ a := by
  simp [Memory.erase]

theorem Memory.mem_insert {m : Memory} {c d : Host.Cell} : d ∈ Memory.insert c m ↔ d = c ∨ d ∈ m := by
  induction m with
  | nil => simp [Memory.insert]
  | cons e m ih =>
    unfold Memory.insert
    split
    · simp
    · simp [ih]; tauto

/-- Reading the address written gives the byte written. -/
@[simp] theorem Memory.read_write_self (m : Memory) (a : Nat) (v : Byte) : (m.write a v).read a = v := by
  unfold Memory.write
  split
  · next h => rw [h, Memory.read_erase_self]
  · exact Memory.read_insert_self _ _ _ fun c hc => (Memory.mem_erase.1 hc).2

/-- A write leaves every other address alone. -/
theorem Memory.read_write_ne (m : Memory) {a b : Nat} (v : Byte) (h : b ≠ a) : (m.write a v).read b = m.read b := by
  unfold Memory.write
  split
  · exact Memory.read_erase_ne m h
  · rw [Memory.read_insert_ne _ v h, Memory.read_erase_ne m h]

theorem Memory.wf_cons {c : Host.Cell} {m : Memory} :
    Memory.wf (c :: m) = true ↔ c.2 ≠ Config.unwritten ∧ (∀ d ∈ m, c.1 < d.1) ∧ Memory.wf m = true := by
  simp [Memory.wf, and_assoc]

theorem Memory.wf_erase {m : Memory} (a : Nat) (h : m.wf = true) : (Memory.erase m a).wf = true := by
  induction m with
  | nil => rfl
  | cons c m ih =>
    obtain ⟨h1, h2, h3⟩ := Memory.wf_cons.1 h
    by_cases hc : c.1 = a
    · have : Memory.erase (c :: m) a = Memory.erase m a := by simp [Memory.erase, hc]
      rw [this]; exact ih h3
    · have : Memory.erase (c :: m) a = c :: Memory.erase m a := by simp [Memory.erase, hc]
      rw [this]
      exact Memory.wf_cons.2 ⟨h1, fun d hd => h2 d (Memory.mem_erase.1 hd).1, ih h3⟩

theorem Memory.wf_insert {m : Memory} {c : Host.Cell} (h : m.wf = true) (hv : c.2 ≠ Config.unwritten)
    (hne : ∀ d ∈ m, d.1 ≠ c.1) : (Memory.insert c m).wf = true := by
  induction m with
  | nil => simpa [Memory.insert, Memory.wf] using hv
  | cons e m ih =>
    obtain ⟨h1, h2, h3⟩ := Memory.wf_cons.1 h
    unfold Memory.insert
    split
    · next hlt =>
      refine Memory.wf_cons.2 ⟨hv, fun d hd => ?_, h⟩
      rcases List.mem_cons.1 hd with rfl | hd
      · exact hlt
      · exact lt_trans hlt (h2 d hd)
    · next hlt =>
      refine Memory.wf_cons.2 ⟨h1, fun d hd => ?_, ih h3 fun d hd => hne d (by simp [hd])⟩
      rcases Memory.mem_insert.1 hd with rfl | hd
      · have := hne e (by simp); omega
      · exact h2 d hd

/-- A write keeps the canonical form. -/
theorem Memory.wf_write {m : Memory} (a : Nat) (v : Byte) (h : m.wf = true) : (m.write a v).wf = true := by
  unfold Memory.write
  split
  · exact Memory.wf_erase a h
  · next hv => exact Memory.wf_insert (Memory.wf_erase a h) hv fun d hd => (Memory.mem_erase.1 hd).2

/-- A write below a bound keeps every listed address below it. -/
theorem Memory.bound_write {m : Memory} {a n : Nat} (v : Byte) (ha : a < n) (h : ∀ c ∈ m, c.1 < n) :
    ∀ c ∈ m.write a v, c.1 < n := by
  intro c hc
  unfold Memory.write at hc
  split at hc
  · exact h c (Memory.mem_erase.1 hc).1
  · rcases Memory.mem_insert.1 hc with rfl | hc
    · exact ha
    · exact h c (Memory.mem_erase.1 hc).1

/-- Two canonical stores that read alike everywhere are the same data. -/
theorem Memory.eq_of_read_eq : ∀ {m n : Memory}, m.wf = true → n.wf = true → (∀ a, m.read a = n.read a) → m = n := by
  have absent : ∀ {m : Memory} {a : Nat}, (∀ d ∈ m, a < d.1) → m.read a = Config.unwritten := by
    intro m
    induction m with
    | nil => intros; rfl
    | cons d m ih =>
      intro a h
      have := h d (by simp)
      have hd : ¬ d.1 = a := by omega
      simp [Memory.read, hd, ih (fun e he => h e (by simp [he]))]
  intro m
  induction m with
  | nil =>
    intro n _ hn h
    cases n with
    | nil => rfl
    | cons c n => exact absurd (h c.1).symm (by simpa [Memory.read] using (Memory.wf_cons.1 hn).1)
  | cons c m ih =>
    intro n hm hn h
    obtain ⟨c1, c2, c3⟩ := Memory.wf_cons.1 hm
    cases n with
    | nil => exact absurd (h c.1) (by simpa [Memory.read] using c1)
    | cons d n =>
      obtain ⟨d1, d2, d3⟩ := Memory.wf_cons.1 hn
      have key : c.1 = d.1 := by
        rcases Nat.lt_trichotomy c.1 d.1 with hlt | heq | hgt
        · have := h c.1
          rw [absent (m := d :: n) (fun e he => by
            rcases List.mem_cons.1 he with rfl | he
            · exact hlt
            · exact lt_trans hlt (d2 e he))] at this
          exact absurd this (by simpa [Memory.read] using c1)
        · exact heq
        · have := h d.1
          rw [absent (m := c :: m) (fun e he => by
            rcases List.mem_cons.1 he with rfl | he
            · exact hgt
            · exact lt_trans hgt (c2 e he))] at this
          exact absurd this.symm (by simpa [Memory.read] using d1)
      have val : c.2 = d.2 := by simpa [Memory.read, key] using h c.1
      have tail : m = n := by
        refine ih c3 d3 fun a => ?_
        have ha := h a
        by_cases e : c.1 = a
        · rw [absent (fun x hx => e ▸ c2 x hx), absent (fun x hx => e ▸ key ▸ d2 x hx)]
        · have e' : ¬ d.1 = a := key ▸ e
          simpa [Memory.read, e, e'] using ha
      rw [tail, Prod.ext key val]

end Sys2Proof.Machine
end

