-- ==== Sys2Proof/Laws/State.lean ====
section
/-! SUPPORT. One lemma per field per named update of the state, so that no proof unfolds a record update. -/

namespace Sys2Proof.Machine

/-! `setReg`. -/

@[simp] theorem State.setReg_pc (s : State) (r : Reg) (v : Byte) : (s.setReg r v).pc = s.pc := by cases r <;> rfl
@[simp] theorem State.setReg_sp (s : State) (r : Reg) (v : Byte) : (s.setReg r v).sp = s.sp := by cases r <;> rfl
@[simp] theorem State.setReg_z (s : State) (r : Reg) (v : Byte) : (s.setReg r v).z = s.z := by cases r <;> rfl
@[simp] theorem State.setReg_runState (s : State) (r : Reg) (v : Byte) : (s.setReg r v).runState = s.runState := by cases r <;> rfl
@[simp] theorem State.setReg_stopCause (s : State) (r : Reg) (v : Byte) : (s.setReg r v).stopCause = s.stopCause := by cases r <;> rfl
@[simp] theorem State.setReg_stopInfo (s : State) (r : Reg) (v : Byte) : (s.setReg r v).stopInfo = s.stopInfo := by cases r <;> rfl
@[simp] theorem State.setReg_stopAddr (s : State) (r : Reg) (v : Byte) : (s.setReg r v).stopAddr = s.stopAddr := by cases r <;> rfl
@[simp] theorem State.setReg_ir (s : State) (r : Reg) (v : Byte) : (s.setReg r v).ir = s.ir := by cases r <;> rfl
@[simp] theorem State.setReg_extra (s : State) (r : Reg) (v : Byte) : (s.setReg r v).extra = s.extra := by cases r <;> rfl
@[simp] theorem State.setReg_wait (s : State) (r : Reg) (v : Byte) : (s.setReg r v).wait = s.wait := by cases r <;> rfl
@[simp] theorem State.setReg_mem (s : State) (r : Reg) (v : Byte) : (s.setReg r v).mem = s.mem := by cases r <;> rfl
@[simp] theorem State.setReg_memSize (s : State) (r : Reg) (v : Byte) : (s.setReg r v).memSize = s.memSize := by cases r <;> rfl
@[simp] theorem State.setReg_disk (s : State) (r : Reg) (v : Byte) : (s.setReg r v).disk = s.disk := by cases r <;> rfl
@[simp] theorem State.setReg_diskSize (s : State) (r : Reg) (v : Byte) : (s.setReg r v).diskSize = s.diskSize := by cases r <;> rfl
@[simp] theorem State.setReg_input (s : State) (r : Reg) (v : Byte) : (s.setReg r v).input = s.input := by cases r <;> rfl
@[simp] theorem State.setReg_output (s : State) (r : Reg) (v : Byte) : (s.setReg r v).output = s.output := by cases r <;> rfl
@[simp] theorem State.setReg_memStall (s : State) (r : Reg) (v : Byte) : (s.setReg r v).memStall = s.memStall := by cases r <;> rfl
@[simp] theorem State.setReg_diskReady (s : State) (r : Reg) (v : Byte) : (s.setReg r v).diskReady = s.diskReady := by cases r <;> rfl
@[simp] theorem State.setReg_outputReady (s : State) (r : Reg) (v : Byte) : (s.setReg r v).outputReady = s.outputReady := by cases r <;> rfl
@[simp] theorem State.setReg_host (s : State) (r : Reg) (v : Byte) : (s.setReg r v).host = s.host := by cases r <;> rfl
@[simp] theorem State.setReg_draws (s : State) (r : Reg) (v : Byte) : (s.setReg r v).draws = s.draws := by cases r <;> rfl

@[simp] theorem State.getReg_setReg_self (s : State) (r : Reg) (v : Byte) : (s.setReg r v).getReg r = v := by cases r <;> rfl

theorem State.getReg_setReg_ne (s : State) {r d : Reg} (v : Byte) (h : r ≠ d) : (s.setReg d v).getReg r = s.getReg r := by
  cases r <;> cases d <;> first | rfl | exact absurd rfl h

theorem State.setReg_getReg_self (s : State) (r : Reg) : s.setReg r (s.getReg r) = s := by cases r <;> rfl

/-! `setZ`. -/

@[simp] theorem State.setZ_x0 (s : State) (v : Byte) : (s.setZ v).x0 = s.x0 := rfl
@[simp] theorem State.setZ_x1 (s : State) (v : Byte) : (s.setZ v).x1 = s.x1 := rfl
@[simp] theorem State.setZ_x2 (s : State) (v : Byte) : (s.setZ v).x2 = s.x2 := rfl
@[simp] theorem State.setZ_x3 (s : State) (v : Byte) : (s.setZ v).x3 = s.x3 := rfl
@[simp] theorem State.setZ_pc (s : State) (v : Byte) : (s.setZ v).pc = s.pc := rfl
@[simp] theorem State.setZ_sp (s : State) (v : Byte) : (s.setZ v).sp = s.sp := rfl
@[simp] theorem State.setZ_z (s : State) (v : Byte) : (s.setZ v).z = (v == 0x00) := rfl
@[simp] theorem State.setZ_runState (s : State) (v : Byte) : (s.setZ v).runState = s.runState := rfl
@[simp] theorem State.setZ_stopCause (s : State) (v : Byte) : (s.setZ v).stopCause = s.stopCause := rfl
@[simp] theorem State.setZ_stopInfo (s : State) (v : Byte) : (s.setZ v).stopInfo = s.stopInfo := rfl
@[simp] theorem State.setZ_stopAddr (s : State) (v : Byte) : (s.setZ v).stopAddr = s.stopAddr := rfl
@[simp] theorem State.setZ_ir (s : State) (v : Byte) : (s.setZ v).ir = s.ir := rfl
@[simp] theorem State.setZ_extra (s : State) (v : Byte) : (s.setZ v).extra = s.extra := rfl
@[simp] theorem State.setZ_wait (s : State) (v : Byte) : (s.setZ v).wait = s.wait := rfl
@[simp] theorem State.setZ_mem (s : State) (v : Byte) : (s.setZ v).mem = s.mem := rfl
@[simp] theorem State.setZ_memSize (s : State) (v : Byte) : (s.setZ v).memSize = s.memSize := rfl
@[simp] theorem State.setZ_disk (s : State) (v : Byte) : (s.setZ v).disk = s.disk := rfl
@[simp] theorem State.setZ_diskSize (s : State) (v : Byte) : (s.setZ v).diskSize = s.diskSize := rfl
@[simp] theorem State.setZ_input (s : State) (v : Byte) : (s.setZ v).input = s.input := rfl
@[simp] theorem State.setZ_output (s : State) (v : Byte) : (s.setZ v).output = s.output := rfl
@[simp] theorem State.setZ_memStall (s : State) (v : Byte) : (s.setZ v).memStall = s.memStall := rfl
@[simp] theorem State.setZ_diskReady (s : State) (v : Byte) : (s.setZ v).diskReady = s.diskReady := rfl
@[simp] theorem State.setZ_outputReady (s : State) (v : Byte) : (s.setZ v).outputReady = s.outputReady := rfl
@[simp] theorem State.setZ_host (s : State) (v : Byte) : (s.setZ v).host = s.host := rfl
@[simp] theorem State.setZ_draws (s : State) (v : Byte) : (s.setZ v).draws = s.draws := rfl
@[simp] theorem State.setZ_getReg (s : State) (v : Byte) (r : Reg) : (s.setZ v).getReg r = s.getReg r := by cases r <;> rfl

/-! `stop`. -/

@[simp] theorem State.stop_x0 (s : State) (rs : RunState) (c : StopCause) (k : Byte) (a : Addr) : (s.stop rs c k a).x0 = s.x0 := rfl
@[simp] theorem State.stop_x1 (s : State) (rs : RunState) (c : StopCause) (k : Byte) (a : Addr) : (s.stop rs c k a).x1 = s.x1 := rfl
@[simp] theorem State.stop_x2 (s : State) (rs : RunState) (c : StopCause) (k : Byte) (a : Addr) : (s.stop rs c k a).x2 = s.x2 := rfl
@[simp] theorem State.stop_x3 (s : State) (rs : RunState) (c : StopCause) (k : Byte) (a : Addr) : (s.stop rs c k a).x3 = s.x3 := rfl
@[simp] theorem State.stop_pc (s : State) (rs : RunState) (c : StopCause) (k : Byte) (a : Addr) : (s.stop rs c k a).pc = s.pc := rfl
@[simp] theorem State.stop_sp (s : State) (rs : RunState) (c : StopCause) (k : Byte) (a : Addr) : (s.stop rs c k a).sp = s.sp := rfl
@[simp] theorem State.stop_z (s : State) (rs : RunState) (c : StopCause) (k : Byte) (a : Addr) : (s.stop rs c k a).z = s.z := rfl
@[simp] theorem State.stop_runState (s : State) (rs : RunState) (c : StopCause) (k : Byte) (a : Addr) : (s.stop rs c k a).runState = rs := rfl
@[simp] theorem State.stop_stopCause (s : State) (rs : RunState) (c : StopCause) (k : Byte) (a : Addr) : (s.stop rs c k a).stopCause = c := rfl
@[simp] theorem State.stop_stopInfo (s : State) (rs : RunState) (c : StopCause) (k : Byte) (a : Addr) : (s.stop rs c k a).stopInfo = k := rfl
@[simp] theorem State.stop_stopAddr (s : State) (rs : RunState) (c : StopCause) (k : Byte) (a : Addr) : (s.stop rs c k a).stopAddr = a := rfl
@[simp] theorem State.stop_ir (s : State) (rs : RunState) (c : StopCause) (k : Byte) (a : Addr) : (s.stop rs c k a).ir = s.ir := rfl
@[simp] theorem State.stop_extra (s : State) (rs : RunState) (c : StopCause) (k : Byte) (a : Addr) : (s.stop rs c k a).extra = s.extra := rfl
@[simp] theorem State.stop_wait (s : State) (rs : RunState) (c : StopCause) (k : Byte) (a : Addr) : (s.stop rs c k a).wait = s.wait := rfl
@[simp] theorem State.stop_mem (s : State) (rs : RunState) (c : StopCause) (k : Byte) (a : Addr) : (s.stop rs c k a).mem = s.mem := rfl
@[simp] theorem State.stop_memSize (s : State) (rs : RunState) (c : StopCause) (k : Byte) (a : Addr) : (s.stop rs c k a).memSize = s.memSize := rfl
@[simp] theorem State.stop_disk (s : State) (rs : RunState) (c : StopCause) (k : Byte) (a : Addr) : (s.stop rs c k a).disk = s.disk := rfl
@[simp] theorem State.stop_diskSize (s : State) (rs : RunState) (c : StopCause) (k : Byte) (a : Addr) : (s.stop rs c k a).diskSize = s.diskSize := rfl
@[simp] theorem State.stop_input (s : State) (rs : RunState) (c : StopCause) (k : Byte) (a : Addr) : (s.stop rs c k a).input = s.input := rfl
@[simp] theorem State.stop_output (s : State) (rs : RunState) (c : StopCause) (k : Byte) (a : Addr) : (s.stop rs c k a).output = s.output := rfl
@[simp] theorem State.stop_memStall (s : State) (rs : RunState) (c : StopCause) (k : Byte) (a : Addr) : (s.stop rs c k a).memStall = s.memStall := rfl
@[simp] theorem State.stop_diskReady (s : State) (rs : RunState) (c : StopCause) (k : Byte) (a : Addr) : (s.stop rs c k a).diskReady = s.diskReady := rfl
@[simp] theorem State.stop_outputReady (s : State) (rs : RunState) (c : StopCause) (k : Byte) (a : Addr) : (s.stop rs c k a).outputReady = s.outputReady := rfl
@[simp] theorem State.stop_host (s : State) (rs : RunState) (c : StopCause) (k : Byte) (a : Addr) : (s.stop rs c k a).host = s.host := rfl
@[simp] theorem State.stop_draws (s : State) (rs : RunState) (c : StopCause) (k : Byte) (a : Addr) : (s.stop rs c k a).draws = s.draws := rfl
@[simp] theorem State.stop_getReg (s : State) (rs : RunState) (c : StopCause) (k : Byte) (a : Addr) (r : Reg) : (s.stop rs c k a).getReg r = s.getReg r := by cases r <;> rfl

/-! `emit`. -/

@[simp] theorem State.emit_x0 (s : State) (v : Byte) : (s.emit v).x0 = s.x0 := rfl
@[simp] theorem State.emit_x1 (s : State) (v : Byte) : (s.emit v).x1 = s.x1 := rfl
@[simp] theorem State.emit_x2 (s : State) (v : Byte) : (s.emit v).x2 = s.x2 := rfl
@[simp] theorem State.emit_x3 (s : State) (v : Byte) : (s.emit v).x3 = s.x3 := rfl
@[simp] theorem State.emit_pc (s : State) (v : Byte) : (s.emit v).pc = s.pc := rfl
@[simp] theorem State.emit_sp (s : State) (v : Byte) : (s.emit v).sp = s.sp := rfl
@[simp] theorem State.emit_z (s : State) (v : Byte) : (s.emit v).z = s.z := rfl
@[simp] theorem State.emit_runState (s : State) (v : Byte) : (s.emit v).runState = s.runState := rfl
@[simp] theorem State.emit_stopCause (s : State) (v : Byte) : (s.emit v).stopCause = s.stopCause := rfl
@[simp] theorem State.emit_stopInfo (s : State) (v : Byte) : (s.emit v).stopInfo = s.stopInfo := rfl
@[simp] theorem State.emit_stopAddr (s : State) (v : Byte) : (s.emit v).stopAddr = s.stopAddr := rfl
@[simp] theorem State.emit_ir (s : State) (v : Byte) : (s.emit v).ir = s.ir := rfl
@[simp] theorem State.emit_extra (s : State) (v : Byte) : (s.emit v).extra = s.extra := rfl
@[simp] theorem State.emit_wait (s : State) (v : Byte) : (s.emit v).wait = s.wait := rfl
@[simp] theorem State.emit_mem (s : State) (v : Byte) : (s.emit v).mem = s.mem := rfl
@[simp] theorem State.emit_memSize (s : State) (v : Byte) : (s.emit v).memSize = s.memSize := rfl
@[simp] theorem State.emit_disk (s : State) (v : Byte) : (s.emit v).disk = s.disk := rfl
@[simp] theorem State.emit_diskSize (s : State) (v : Byte) : (s.emit v).diskSize = s.diskSize := rfl
@[simp] theorem State.emit_input (s : State) (v : Byte) : (s.emit v).input = s.input := rfl
@[simp] theorem State.emit_output (s : State) (v : Byte) : (s.emit v).output = s.output ++ [v] := rfl
@[simp] theorem State.emit_memStall (s : State) (v : Byte) : (s.emit v).memStall = s.memStall := rfl
@[simp] theorem State.emit_diskReady (s : State) (v : Byte) : (s.emit v).diskReady = s.diskReady := rfl
@[simp] theorem State.emit_outputReady (s : State) (v : Byte) : (s.emit v).outputReady = s.outputReady := rfl
@[simp] theorem State.emit_host (s : State) (v : Byte) : (s.emit v).host = s.host := rfl
@[simp] theorem State.emit_draws (s : State) (v : Byte) : (s.emit v).draws = s.draws := rfl
@[simp] theorem State.emit_getReg (s : State) (v : Byte) (r : Reg) : (s.emit v).getReg r = s.getReg r := by cases r <;> rfl

/-! `startAt`. -/

@[simp] theorem State.startAt_x0 (s : State) (e : Addr) : (s.startAt e).x0 = s.x0 := rfl
@[simp] theorem State.startAt_x1 (s : State) (e : Addr) : (s.startAt e).x1 = s.x1 := rfl
@[simp] theorem State.startAt_x2 (s : State) (e : Addr) : (s.startAt e).x2 = s.x2 := rfl
@[simp] theorem State.startAt_x3 (s : State) (e : Addr) : (s.startAt e).x3 = s.x3 := rfl
@[simp] theorem State.startAt_pc (s : State) (e : Addr) : (s.startAt e).pc = e := rfl
@[simp] theorem State.startAt_sp (s : State) (e : Addr) : (s.startAt e).sp = s.sp := rfl
@[simp] theorem State.startAt_z (s : State) (e : Addr) : (s.startAt e).z = s.z := rfl
@[simp] theorem State.startAt_runState (s : State) (e : Addr) : (s.startAt e).runState = .running := rfl
@[simp] theorem State.startAt_stopCause (s : State) (e : Addr) : (s.startAt e).stopCause = .none := rfl
@[simp] theorem State.startAt_stopInfo (s : State) (e : Addr) : (s.startAt e).stopInfo = 0x00 := rfl
@[simp] theorem State.startAt_stopAddr (s : State) (e : Addr) : (s.startAt e).stopAddr = 0x0000 := rfl
@[simp] theorem State.startAt_ir (s : State) (e : Addr) : (s.startAt e).ir = s.ir := rfl
@[simp] theorem State.startAt_extra (s : State) (e : Addr) : (s.startAt e).extra = s.extra := rfl
@[simp] theorem State.startAt_wait (s : State) (e : Addr) : (s.startAt e).wait = s.wait := rfl
@[simp] theorem State.startAt_mem (s : State) (e : Addr) : (s.startAt e).mem = s.mem := rfl
@[simp] theorem State.startAt_memSize (s : State) (e : Addr) : (s.startAt e).memSize = s.memSize := rfl
@[simp] theorem State.startAt_disk (s : State) (e : Addr) : (s.startAt e).disk = s.disk := rfl
@[simp] theorem State.startAt_diskSize (s : State) (e : Addr) : (s.startAt e).diskSize = s.diskSize := rfl
@[simp] theorem State.startAt_input (s : State) (e : Addr) : (s.startAt e).input = s.input := rfl
@[simp] theorem State.startAt_output (s : State) (e : Addr) : (s.startAt e).output = s.output := rfl
@[simp] theorem State.startAt_memStall (s : State) (e : Addr) : (s.startAt e).memStall = s.memStall := rfl
@[simp] theorem State.startAt_diskReady (s : State) (e : Addr) : (s.startAt e).diskReady = s.diskReady := rfl
@[simp] theorem State.startAt_outputReady (s : State) (e : Addr) : (s.startAt e).outputReady = s.outputReady := rfl
@[simp] theorem State.startAt_host (s : State) (e : Addr) : (s.startAt e).host = s.host := rfl
@[simp] theorem State.startAt_draws (s : State) (e : Addr) : (s.startAt e).draws = s.draws := rfl
@[simp] theorem State.startAt_getReg (s : State) (e : Addr) (r : Reg) : (s.startAt e).getReg r = s.getReg r := by cases r <;> rfl

/-! `writeResult`. -/

@[simp] theorem State.writeResult_pc (s : State) (r : Reg) (v : Byte) : (s.writeResult r v).pc = s.pc := by simp [State.writeResult]
@[simp] theorem State.writeResult_sp (s : State) (r : Reg) (v : Byte) : (s.writeResult r v).sp = s.sp := by simp [State.writeResult]
@[simp] theorem State.writeResult_z (s : State) (r : Reg) (v : Byte) : (s.writeResult r v).z = (v == 0x00) := rfl
@[simp] theorem State.writeResult_runState (s : State) (r : Reg) (v : Byte) : (s.writeResult r v).runState = s.runState := by simp [State.writeResult]
@[simp] theorem State.writeResult_stopCause (s : State) (r : Reg) (v : Byte) : (s.writeResult r v).stopCause = s.stopCause := by simp [State.writeResult]
@[simp] theorem State.writeResult_stopInfo (s : State) (r : Reg) (v : Byte) : (s.writeResult r v).stopInfo = s.stopInfo := by simp [State.writeResult]
@[simp] theorem State.writeResult_stopAddr (s : State) (r : Reg) (v : Byte) : (s.writeResult r v).stopAddr = s.stopAddr := by simp [State.writeResult]
@[simp] theorem State.writeResult_ir (s : State) (r : Reg) (v : Byte) : (s.writeResult r v).ir = s.ir := by simp [State.writeResult]
@[simp] theorem State.writeResult_extra (s : State) (r : Reg) (v : Byte) : (s.writeResult r v).extra = s.extra := by simp [State.writeResult]
@[simp] theorem State.writeResult_wait (s : State) (r : Reg) (v : Byte) : (s.writeResult r v).wait = s.wait := by simp [State.writeResult]
@[simp] theorem State.writeResult_mem (s : State) (r : Reg) (v : Byte) : (s.writeResult r v).mem = s.mem := by simp [State.writeResult]
@[simp] theorem State.writeResult_memSize (s : State) (r : Reg) (v : Byte) : (s.writeResult r v).memSize = s.memSize := by simp [State.writeResult]
@[simp] theorem State.writeResult_disk (s : State) (r : Reg) (v : Byte) : (s.writeResult r v).disk = s.disk := by simp [State.writeResult]
@[simp] theorem State.writeResult_diskSize (s : State) (r : Reg) (v : Byte) : (s.writeResult r v).diskSize = s.diskSize := by simp [State.writeResult]
@[simp] theorem State.writeResult_input (s : State) (r : Reg) (v : Byte) : (s.writeResult r v).input = s.input := by simp [State.writeResult]
@[simp] theorem State.writeResult_output (s : State) (r : Reg) (v : Byte) : (s.writeResult r v).output = s.output := by simp [State.writeResult]
@[simp] theorem State.writeResult_memStall (s : State) (r : Reg) (v : Byte) : (s.writeResult r v).memStall = s.memStall := by simp [State.writeResult]
@[simp] theorem State.writeResult_diskReady (s : State) (r : Reg) (v : Byte) : (s.writeResult r v).diskReady = s.diskReady := by simp [State.writeResult]
@[simp] theorem State.writeResult_outputReady (s : State) (r : Reg) (v : Byte) : (s.writeResult r v).outputReady = s.outputReady := by simp [State.writeResult]
@[simp] theorem State.writeResult_host (s : State) (r : Reg) (v : Byte) : (s.writeResult r v).host = s.host := by simp [State.writeResult]
@[simp] theorem State.writeResult_draws (s : State) (r : Reg) (v : Byte) : (s.writeResult r v).draws = s.draws := by simp [State.writeResult]

@[simp] theorem State.getReg_writeResult_self (s : State) (r : Reg) (v : Byte) : (s.writeResult r v).getReg r = v := by
  simp [State.writeResult]

theorem State.getReg_writeResult_ne (s : State) {r d : Reg} (v : Byte) (h : r ≠ d) :
    (s.writeResult d v).getReg r = s.getReg r := by
  simp [State.writeResult, State.getReg_setReg_ne s v h]

/-! Registers read through a change of other fields. -/

@[simp] theorem State.getReg_with_pc (s : State) (v : Addr) (r : Reg) : State.getReg { s with pc := v } r = s.getReg r := by cases r <;> rfl
@[simp] theorem State.getReg_with_sp (s : State) (v : Byte) (r : Reg) : State.getReg { s with sp := v } r = s.getReg r := by cases r <;> rfl
@[simp] theorem State.getReg_with_z (s : State) (v : Bool) (r : Reg) : State.getReg { s with z := v } r = s.getReg r := by cases r <;> rfl
@[simp] theorem State.getReg_with_runState (s : State) (v : RunState) (r : Reg) : State.getReg { s with runState := v } r = s.getReg r := by cases r <;> rfl
@[simp] theorem State.getReg_with_stopCause (s : State) (v : StopCause) (r : Reg) : State.getReg { s with stopCause := v } r = s.getReg r := by cases r <;> rfl
@[simp] theorem State.getReg_with_stopInfo (s : State) (v : Byte) (r : Reg) : State.getReg { s with stopInfo := v } r = s.getReg r := by cases r <;> rfl
@[simp] theorem State.getReg_with_stopAddr (s : State) (v : Addr) (r : Reg) : State.getReg { s with stopAddr := v } r = s.getReg r := by cases r <;> rfl
@[simp] theorem State.getReg_with_ir (s : State) (v : Byte) (r : Reg) : State.getReg { s with ir := v } r = s.getReg r := by cases r <;> rfl
@[simp] theorem State.getReg_with_extra (s : State) (v : List Byte) (r : Reg) : State.getReg { s with extra := v } r = s.getReg r := by cases r <;> rfl
@[simp] theorem State.getReg_with_wait (s : State) (v : PortWait) (r : Reg) : State.getReg { s with wait := v } r = s.getReg r := by cases r <;> rfl
@[simp] theorem State.getReg_with_mem (s : State) (v : Memory) (r : Reg) : State.getReg { s with mem := v } r = s.getReg r := by cases r <;> rfl
@[simp] theorem State.getReg_with_memSize (s : State) (v : Nat) (r : Reg) : State.getReg { s with memSize := v } r = s.getReg r := by cases r <;> rfl
@[simp] theorem State.getReg_with_disk (s : State) (v : Memory) (r : Reg) : State.getReg { s with disk := v } r = s.getReg r := by cases r <;> rfl
@[simp] theorem State.getReg_with_diskSize (s : State) (v : Nat) (r : Reg) : State.getReg { s with diskSize := v } r = s.getReg r := by cases r <;> rfl
@[simp] theorem State.getReg_with_input (s : State) (v : List Int) (r : Reg) : State.getReg { s with input := v } r = s.getReg r := by cases r <;> rfl
@[simp] theorem State.getReg_with_output (s : State) (v : List Byte) (r : Reg) : State.getReg { s with output := v } r = s.getReg r := by cases r <;> rfl
@[simp] theorem State.getReg_with_memStall (s : State) (v : Option MemAccess) (r : Reg) : State.getReg { s with memStall := v } r = s.getReg r := by cases r <;> rfl
@[simp] theorem State.getReg_with_diskReady (s : State) (v : Bool) (r : Reg) : State.getReg { s with diskReady := v } r = s.getReg r := by cases r <;> rfl
@[simp] theorem State.getReg_with_outputReady (s : State) (v : Bool) (r : Reg) : State.getReg { s with outputReady := v } r = s.getReg r := by cases r <;> rfl
@[simp] theorem State.getReg_with_host (s : State) (v : List HostMove) (r : Reg) : State.getReg { s with host := v } r = s.getReg r := by cases r <;> rfl
@[simp] theorem State.getReg_with_draws (s : State) (v : Nat) (r : Reg) : State.getReg { s with draws := v } r = s.getReg r := by cases r <;> rfl

end Sys2Proof.Machine
end

