-- ==== Sys2Proof/Laws/Ops.lean ====
section
/-! SUPPORT. For each shared operation, once, everything it can do. -/

namespace Sys2Proof.Machine

/-! Register indices. -/

theorem regOfIndex_eq_none_iff (k : Byte) : regOfIndex k = none ↔ 3 < k.toNat := by
  have toNat_eq : ∀ j : Byte, k = j ↔ k.toNat = j.toNat := fun j => BitVec.toNat_inj.symm
  unfold regOfIndex
  repeat' split
  all_goals simp_all [BitVec.toNat_ofNat]
  omega

theorem regOfIndex_isSome_iff (k : Byte) : (regOfIndex k).isSome = true ↔ k.toNat ≤ 3 := by
  have := regOfIndex_eq_none_iff k
  cases h : regOfIndex k <;> simp_all

/-- Reg(k) goes on with the register the index names, or stops with the index and nothing written (R66, R92). -/
theorem withReg_cases (k : Byte) (s : State) (go : Reg → State) :
    (∃ r, regOfIndex k = some r ∧ withReg k s go = go r) ∨
    (regOfIndex k = none ∧ withReg k s go = s.raiseIllegalRegister k) := by
  unfold withReg
  cases regOfIndex k <;> simp

@[simp] theorem withReg_of_some {k : Byte} {r : Reg} (h : regOfIndex k = some r) (s : State) (go : Reg → State) :
    withReg k s go = go r := by simp [withReg, h]

@[simp] theorem withReg_of_none {k : Byte} (h : regOfIndex k = none) (s : State) (go : Reg → State) :
    withReg k s go = s.raiseIllegalRegister k := by simp [withReg, h]

/-! Addresses. -/

@[simp] theorem stackAddr_toNat (sp : Byte) : (stackAddr sp).toNat = sp.toNat := by
  have := sp.isLt
  simp only [stackAddr, BitVec.toNat_setWidth]
  omega

@[simp] theorem addr8Of_toNat (d : Byte) : (addr8Of d).toNat = d.toNat := stackAddr_toNat d

theorem addr16Of_toNat (lo hi : Byte) : (addr16Of lo hi).toNat = hi.toNat * 256 + lo.toNat := by
  have h1 := lo.isLt
  have h2 := hi.isLt
  have key : hi.toNat <<< 8 ||| lo.toNat = hi.toNat * 256 + lo.toNat := by
    rw [← Nat.shiftLeft_add_eq_or_of_lt h1 hi.toNat, Nat.shiftLeft_eq]
  have small : hi.toNat <<< 8 < 65536 := by rw [Nat.shiftLeft_eq]; omega
  simp only [addr16Of, BitVec.toNat_or, BitVec.toNat_shiftLeft, BitVec.toNat_setWidth]
  rw [Nat.mod_eq_of_lt (by omega : hi.toNat < 2 ^ 16), Nat.mod_eq_of_lt (by omega : lo.toNat < 2 ^ 16),
    Nat.mod_eq_of_lt small, key]

@[simp] theorem addr16Of_low_high (a : Addr) : addr16Of (lowByte a) (highByte a) = a := by
  apply BitVec.eq_of_toNat_eq
  have := a.isLt
  rw [addr16Of_toNat]
  simp only [lowByte, highByte, BitVec.extractLsb'_toNat, Nat.shiftRight_eq_div_pow]
  omega

/-! The store ports. -/

theorem memRead_of_lt {a : Addr} {s : State} (h : a.toNat < s.memSize) : memRead a s = .ok (s.mem.read a.toNat) := by
  simp [memRead, h]

theorem memWrite_of_lt {a : Addr} {s : State} (v : Byte) (h : a.toNat < s.memSize) :
    memWrite a v s = .ok { s with mem := s.mem.write a.toNat v } := by
  simp [memWrite, h]

/-- Everything a memory write can do (R30, R39). -/
theorem memWrite_cases (a : Addr) (v : Byte) (s : State) :
    (a.toNat < s.memSize ∧ memWrite a v s = .ok { s with mem := s.mem.write a.toNat v }) ∨
    (s.memSize ≤ a.toNat ∧ memWrite a v s = .error a) := by
  unfold memWrite
  split <;> simp_all

/-- Everything a persistent-store write can do (R33, R35). -/
theorem diskWrite_cases (a : Addr) (v : Byte) (s : State) :
    (a.toNat < s.diskSize ∧ diskWrite a v s = .ok { s with disk := s.disk.write a.toNat v }) ∨
    (s.diskSize ≤ a.toNat ∧ diskWrite a v s = .error a) := by
  unfold diskWrite
  split <;> simp_all

/-- Everything a persistent-store read can do (R33). -/
theorem diskRead_cases (a : Addr) (s : State) :
    (a.toNat < s.diskSize ∧ diskRead a s = .ok (s.disk.read a.toNat)) ∨ (s.diskSize ≤ a.toNat ∧ diskRead a s = .error a) := by
  unfold diskRead
  split <;> simp_all

/-! The stack. -/

/-- Everything a push can do (R68). -/
theorem push_cases (v : Byte) (s : State) :
    (s.sp.toNat < s.memSize ∧ push v s = .ok { s with mem := s.mem.write s.sp.toNat v, sp := s.sp - 1 }) ∨
    (s.memSize ≤ s.sp.toNat ∧ push v s = .error (stackAddr s.sp)) := by
  unfold push
  rcases memWrite_cases (stackAddr s.sp) v s with ⟨h, e⟩ | ⟨h, e⟩ <;> simp_all

theorem push_of_lt {s : State} (v : Byte) (h : s.sp.toNat < s.memSize) :
    push v s = .ok { s with mem := s.mem.write s.sp.toNat v, sp := s.sp - 1 } := by
  rcases push_cases v s with ⟨_, e⟩ | ⟨h', _⟩
  · exact e
  · omega

/-- Everything a pop can do (R69, R73). -/
theorem pop_cases (s : State) :
    ((s.sp + 1).toNat < s.memSize ∧ pop s = .ok (s.mem.read (s.sp + 1).toNat, { s with sp := s.sp + 1 })) ∨
    (s.memSize ≤ (s.sp + 1).toNat ∧ pop s = .error (stackAddr (s.sp + 1))) := by
  unfold pop memRead
  rw [stackAddr_toNat]
  by_cases h : (s.sp + 1).toNat < s.memSize
  · exact .inl ⟨h, by rw [if_pos h]⟩
  · exact .inr ⟨by omega, by rw [if_neg h]⟩

theorem pop_of_lt {s : State} (h : (s.sp + 1).toNat < s.memSize) :
    pop s = .ok (s.mem.read (s.sp + 1).toNat, { s with sp := s.sp + 1 }) := by
  rcases pop_cases s with ⟨_, e⟩ | ⟨h', _⟩
  · exact e
  · omega

/-! Fetching. -/

/-- Everything a fetch can do (R65). -/
theorem fetch_cases (s : State) :
    (s.pc.toNat < s.memSize ∧ fetch s = .ok (s.mem.read s.pc.toNat, { s with pc := s.pc + 1 })) ∨
    (s.memSize ≤ s.pc.toNat ∧ fetch s = .error s.pc) := by
  unfold fetch memRead
  by_cases h : s.pc.toNat < s.memSize
  · exact .inl ⟨h, by simp [h]⟩
  · exact .inr ⟨by omega, by simp [h]⟩

theorem fetch_of_lt {s : State} (h : s.pc.toNat < s.memSize) :
    fetch s = .ok (s.mem.read s.pc.toNat, { s with pc := s.pc + 1 }) := by
  rcases fetch_cases s with ⟨_, e⟩ | ⟨h', _⟩
  · exact e
  · omega

theorem fetch_of_ge {s : State} (h : s.memSize ≤ s.pc.toNat) : fetch s = .error s.pc := by
  rcases fetch_cases s with ⟨h', _⟩ | ⟨_, e⟩
  · omega
  · exact e

/-- With a conforming memory every fetch succeeds (R29, R30). -/
theorem fetch_conforming {s : State} (h : 65536 ≤ s.memSize) :
    fetch s = .ok (s.mem.read s.pc.toNat, { s with pc := s.pc + 1 }) :=
  fetch_of_lt (lt_of_lt_of_le s.pc.isLt h)

@[simp] theorem State.memAnswers_of_none {s : State} (h : s.memStall = none) (m : MemAccess) : s.memAnswers m = true := by
  simp [State.memAnswers, h]

theorem State.memAnswers_of_some {s : State} {m n : MemAccess} (h : s.memStall = some m) : s.memAnswers n = decide (m ≠ n) := by
  simp [State.memAnswers, h]

@[simp] theorem State.memAnswers_with_wait (s : State) (w : PortWait) (m : MemAccess) :
    State.memAnswers { s with wait := w } m = s.memAnswers m := rfl

/-- Everything the fetch of the word can do (R39, R64, R65). -/
theorem fetchWord_cases (s : State) :
    (s.memAnswers .word = true ∧ s.pc.toNat < s.memSize ∧
      fetchWord s = .ok { s with pc := s.pc + 1, ir := s.mem.read s.pc.toNat, extra := [] }) ∨
    (s.memAnswers .word = true ∧ s.memSize ≤ s.pc.toNat ∧ fetchWord s = .error (s.raiseOutOfBounds s.pc)) ∨
    (s.memAnswers .word = false ∧ fetchWord s = .error { s with wait := .fetchWord }) := by
  unfold fetchWord
  cases hm : s.memAnswers .word with
  | false => exact .inr (.inr ⟨rfl, if_neg (by simp)⟩)
  | true =>
    rcases fetch_cases s with ⟨h, e⟩ | ⟨h, e⟩
    · exact .inl ⟨rfl, h, by simp only [e]; rfl⟩
    · exact .inr (.inl ⟨rfl, h, by simp only [e]; rfl⟩)

/-- Everything the fetch of one more extra byte can do (R39, R65). -/
theorem fetchExtra_succ_cases (k : Nat) (s : State) :
    (s.memAnswers (extraAccess s.extra) = true ∧ s.pc.toNat < s.memSize ∧
      fetchExtra (k + 1) s = fetchExtra k { s with pc := s.pc + 1, extra := s.extra ++ [s.mem.read s.pc.toNat] }) ∨
    (s.memAnswers (extraAccess s.extra) = true ∧ s.memSize ≤ s.pc.toNat ∧ fetchExtra (k + 1) s = .error (s.raiseOutOfBounds s.pc)) ∨
    (s.memAnswers (extraAccess s.extra) = false ∧ fetchExtra (k + 1) s = .error { s with wait := .fetchExtra }) := by
  rw [fetchExtra]
  cases hm : s.memAnswers (extraAccess s.extra) with
  | false => exact .inr (.inr ⟨rfl, if_neg (by simp)⟩)
  | true =>
    rcases fetch_cases s with ⟨h, e⟩ | ⟨h, e⟩
    · exact .inl ⟨rfl, h, by simp only [e]; rfl⟩
    · exact .inr (.inl ⟨rfl, h, by simp only [e]; rfl⟩)

/-! The fetches under the condition that gives each outcome. -/

theorem fetchWord_of_lt {s : State} (hm : s.memAnswers .word = true) (h : s.pc.toNat < s.memSize) :
    fetchWord s = .ok { s with pc := s.pc + 1, ir := s.mem.read s.pc.toNat, extra := [] } := by
  rw [fetchWord, if_pos hm, fetch_of_lt h]

theorem fetchWord_of_ge {s : State} (hm : s.memAnswers .word = true) (h : s.memSize ≤ s.pc.toNat) :
    fetchWord s = .error (s.raiseOutOfBounds s.pc) := by
  rw [fetchWord, if_pos hm, fetch_of_ge h]

theorem fetchWord_of_not_answered {s : State} (hm : s.memAnswers .word = false) :
    fetchWord s = .error { s with wait := .fetchWord } := by
  rw [fetchWord, hm, if_neg (by simp)]

theorem fetchExtra_succ_of_lt (k : Nat) {s : State} (hm : s.memAnswers (extraAccess s.extra) = true) (h : s.pc.toNat < s.memSize) :
    fetchExtra (k + 1) s = fetchExtra k { s with pc := s.pc + 1, extra := s.extra ++ [s.mem.read s.pc.toNat] } := by
  rw [fetchExtra, if_pos hm, fetch_of_lt h]

theorem fetchExtra_succ_of_ge (k : Nat) {s : State} (hm : s.memAnswers (extraAccess s.extra) = true) (h : s.memSize ≤ s.pc.toNat) :
    fetchExtra (k + 1) s = .error (s.raiseOutOfBounds s.pc) := by
  rw [fetchExtra, if_pos hm, fetch_of_ge h]

theorem fetchExtra_succ_of_not_answered (k : Nat) {s : State} (hm : s.memAnswers (extraAccess s.extra) = false) :
    fetchExtra (k + 1) s = .error { s with wait := .fetchExtra } := by
  rw [fetchExtra, hm, if_neg (by simp)]

/-- A fetch sequence that succeeds changes pc and the extra bytes alone. -/
theorem fetchExtra_ok {k : Nat} : ∀ {s t : State}, fetchExtra k s = .ok t →
    t = { s with pc := t.pc, extra := t.extra } ∧ t.extra.length = s.extra.length + k := by
  induction k with
  | zero => intro s t h; cases h; exact ⟨rfl, rfl⟩
  | succ k ih =>
    intro s t h
    rcases fetchExtra_succ_cases k s with ⟨_, _, e⟩ | ⟨_, _, e⟩ | ⟨_, e⟩ <;> rw [e] at h
    · obtain ⟨h1, h2⟩ := ih h
      exact ⟨by rw [h1], by simp at h2; omega⟩
    · cases h
    · cases h

/-- A fetch sequence that stops has advanced pc and holds what it fetched; it aborts at an address the memory lacks (R93) or waits with
bytes still to come (R39). -/
theorem fetchExtra_error {k : Nat} : ∀ {s t : State}, fetchExtra k s = .error t → ∃ p bs, bs.length < s.extra.length + k ∧
    ((∃ a, t = { s with pc := p, extra := bs }.raiseOutOfBounds a ∧ s.memSize ≤ a.toNat) ∨
      t = { s with pc := p, extra := bs, wait := .fetchExtra }) := by
  induction k with
  | zero => intro s t h; cases h
  | succ k ih =>
    intro s t h
    rcases fetchExtra_succ_cases k s with ⟨_, _, e⟩ | ⟨_, ha, e⟩ | ⟨_, e⟩ <;> rw [e] at h
    · obtain ⟨p, bs, h1, h2⟩ := ih h
      exact ⟨p, bs, by simp at h1; omega, h2⟩
    · cases h
      exact ⟨s.pc, s.extra, by omega, .inl ⟨s.pc, rfl, ha⟩⟩
    · cases h
      exact ⟨s.pc, s.extra, by omega, .inr rfl⟩

theorem extraCount_le (w : Byte) : extraCount w ≤ 2 := by
  unfold extraCount
  cases decodeBytes w 0 0 <;> simp [Instr.extraBytes]

/-- A whole fetch that succeeds changes pc, ir and the extra bytes alone (R64, R65). -/
theorem fetchInstr_ok {s t : State} (h : fetchInstr s = .ok t) :
    t = { s with pc := t.pc, ir := t.ir, extra := t.extra } ∧ t.extra.length = extraCount t.ir := by
  rcases fetchWord_cases s with ⟨_, _, e⟩ | ⟨_, _, e⟩ | ⟨_, e⟩ <;> simp only [fetchInstr, e] at h
  · obtain ⟨h1, h2⟩ := fetchExtra_ok h
    have hir : t.ir = s.mem.read s.pc.toNat := by rw [h1]
    exact ⟨by rw [h1], by simpa [hir] using h2⟩
  · cases h
  · cases h

/-- A whole fetch that stops aborts at an address the memory lacks, or waits for the word or for an extra byte; it changes only pc, ir,
the extra bytes and the wait (R39, R93). -/
theorem fetchInstr_error {s t : State} (h : fetchInstr s = .error t) :
    (t = { s with wait := .fetchWord }) ∨
    ∃ p w bs, (bs = s.extra ∨ bs.length < 2) ∧
      ((∃ a, t = { s with pc := p, ir := w, extra := bs }.raiseOutOfBounds a ∧ s.memSize ≤ a.toNat) ∨
        bs.length < extraCount w ∧ t = { s with pc := p, ir := w, extra := bs, wait := .fetchExtra }) := by
  rcases fetchWord_cases s with ⟨_, _, e⟩ | ⟨_, ha, e⟩ | ⟨_, e⟩ <;> simp only [fetchInstr, e] at h
  · obtain ⟨p, bs, h1, h2⟩ := fetchExtra_error h
    have := extraCount_le (s.mem.read s.pc.toNat)
    have hl : bs.length < extraCount (s.mem.read s.pc.toNat) := by simpa using h1
    refine .inr ⟨p, s.mem.read s.pc.toNat, bs, .inr (by omega), ?_⟩
    rcases h2 with ⟨a, e', ha⟩ | e'
    · exact .inl ⟨a, e', ha⟩
    · exact .inr ⟨hl, e'⟩
  · cases h
    exact .inr ⟨s.pc, s.ir, s.extra, .inl rfl, .inl ⟨s.pc, rfl, ha⟩⟩
  · cases h
    exact .inl rfl

/-- A fetch, begun or taken up again, that succeeds changes pc, ir, the extra bytes and the wait, which it ends (R39, R62). -/
theorem fetching_ok {s u : State} (h : fetching s = some (.ok u)) :
    u = { s with pc := u.pc, ir := u.ir, extra := u.extra, wait := .none } ∧ (s.extra.length ≤ 2 → u.extra.length ≤ 2) := by
  cases hw : s.wait <;> simp only [fetching, hw, Option.some.injEq, reduceCtorEq] at h
  · obtain ⟨h1, h2⟩ := fetchInstr_ok h
    exact ⟨by rw [h1, ← hw], fun _ => h2 ▸ extraCount_le _⟩
  · obtain ⟨h1, h2⟩ := fetchInstr_ok h
    exact ⟨by rw [h1], fun _ => h2 ▸ extraCount_le _⟩
  · obtain ⟨h1, h2⟩ := fetchExtra_ok h
    have := extraCount_le s.ir
    exact ⟨by rw [h1], fun hl => by rw [h2]; simp only; omega⟩

/-- A fetch, begun or taken up again, that stops: what `fetchInstr_error` says, the wait with the bytes still to come. -/
theorem fetching_error {s t : State} (h : fetching s = some (.error t)) :
    (t = { s with wait := .fetchWord }) ∨
    ∃ p w bs, (s.extra.length ≤ 2 → bs.length ≤ 2) ∧
      ((∃ a, t = { s with pc := p, ir := w, extra := bs, wait := .none }.raiseOutOfBounds a ∧ s.memSize ≤ a.toNat) ∨
        bs.length < extraCount w ∧ t = { s with pc := p, ir := w, extra := bs, wait := .fetchExtra }) := by
  have begun : ∀ r : State, r.wait = .none → r.extra = s.extra → r.memSize = s.memSize → fetchInstr r = .error t →
      (t = { r with wait := .fetchWord }) ∨ ∃ p w bs, (s.extra.length ≤ 2 → bs.length ≤ 2) ∧
        ((∃ a, t = { r with pc := p, ir := w, extra := bs, wait := .none }.raiseOutOfBounds a ∧ s.memSize ≤ a.toNat) ∨
          bs.length < extraCount w ∧ t = { r with pc := p, ir := w, extra := bs, wait := .fetchExtra }) := by
    intro r hw he hm h
    rcases fetchInstr_error h with h | ⟨p, w, bs, hl, h⟩
    · exact .inl h
    · refine .inr ⟨p, w, bs, fun h2 => ?_, ?_⟩
      · rcases hl with rfl | hl
        · rw [he]; exact h2
        · omega
      · rcases h with ⟨a, h, ha⟩ | h
        · exact .inl ⟨a, by rw [h, ← hw], hm ▸ ha⟩
        · exact .inr h
  cases hw : s.wait <;> simp only [fetching, hw, Option.some.injEq, reduceCtorEq] at h
  · exact begun s hw rfl rfl h
  · exact begun { s with wait := .none } rfl rfl rfl h
  · obtain ⟨p, bs, h1, h2⟩ := fetchExtra_error h
    have := extraCount_le s.ir
    have h1' : bs.length < s.extra.length + (extraCount s.ir - s.extra.length) := h1
    refine .inr ⟨p, s.ir, bs, fun hl => by omega, ?_⟩
    rcases h2 with ⟨a, e, ha⟩ | e
    · exact .inl ⟨a, e, ha⟩
    · refine .inr ⟨?_, e⟩
      by_contra hc
      cases hk : extraCount s.ir - s.extra.length with
      | zero => rw [hk] at h; cases h
      | succ k => omega

/-! Channel and store transactions. -/

/-- Everything InRead can do (R83). -/
theorem inRead_cases (r : Reg) (s : State) :
    (s.input = [] ∧ inRead r s = { s with wait := .inRead r }) ∨
    (∃ t ts, s.input = t :: ts ∧ inRead r s = State.writeResult { s with input := ts } r (tokenByte t)) := by
  unfold inRead
  cases h : s.input <;> simp

/-- Everything OutWrite can do (R47, R99). -/
theorem outWrite_cases (v : Byte) (s : State) :
    (s.outputReady = true ∧ outWrite v s = s.emit v) ∨ (s.outputReady = false ∧ outWrite v s = { s with wait := .outWrite v }) := by
  unfold outWrite
  cases h : s.outputReady <;> simp

/-- Everything a DiskRead into a register can do (R85, R93). -/
theorem diskReadInto_cases (r : Reg) (a : Addr) (s : State) :
    (s.diskReady = false ∧ diskReadInto r a s = { s with wait := .diskRead r a }) ∨
    (s.diskReady = true ∧ a.toNat < s.diskSize ∧ diskReadInto r a s = s.writeResult r (s.disk.read a.toNat)) ∨
    (s.diskReady = true ∧ s.diskSize ≤ a.toNat ∧ diskReadInto r a s = s.raiseOutOfBounds a) := by
  unfold diskReadInto
  rcases diskRead_cases a s with ⟨h, e⟩ | ⟨h, e⟩ <;> cases hr : s.diskReady <;> simp [e, h]

/-- Everything a DiskWrite can do (R35, R86, R93). -/
theorem diskWriteFrom_cases (a : Addr) (v : Byte) (s : State) :
    (s.diskReady = false ∧ diskWriteFrom a v s = { s with wait := .diskWrite a v }) ∨
    (s.diskReady = true ∧ a.toNat < s.diskSize ∧ diskWriteFrom a v s = { s with disk := s.disk.write a.toNat v }) ∨
    (s.diskReady = true ∧ s.diskSize ≤ a.toNat ∧ diskWriteFrom a v s = s.raiseOutOfBounds a) := by
  unfold diskWriteFrom
  by_cases hr : s.diskReady = true
  · rw [if_pos hr]
    rcases diskWrite_cases a v s with ⟨h, e⟩ | ⟨h, e⟩
    · exact .inr (.inl ⟨hr, h, by rw [e]⟩)
    · exact .inr (.inr ⟨hr, h, by rw [e]⟩)
  · rw [if_neg hr]
    exact .inl ⟨by simpa using hr, rfl⟩

/-- Everything a memory store can do (R39, R76, R93). -/
theorem storeByte_cases (a : Addr) (v : Byte) (s : State) :
    (s.memAnswers .store = false ∧ storeByte a v s = { s with wait := .store a v }) ∨
    (s.memAnswers .store = true ∧ a.toNat < s.memSize ∧ storeByte a v s = { s with mem := s.mem.write a.toNat v }) ∨
    (s.memAnswers .store = true ∧ s.memSize ≤ a.toNat ∧ storeByte a v s = s.raiseOutOfBounds a) := by
  unfold storeByte
  cases hm : s.memAnswers .store with
  | false => exact .inl ⟨rfl, if_neg (by simp)⟩
  | true =>
    rcases memWrite_cases a v s with ⟨h, e⟩ | ⟨h, e⟩
    · exact .inr (.inl ⟨rfl, h, by rw [e]; rfl⟩)
    · exact .inr (.inr ⟨rfl, h, by rw [e]; rfl⟩)

/-- Everything the second push of a CALL can do (R39, R73, R81). -/
theorem callPushLow_cases (t : Addr) (s : State) :
    (s.memAnswers .pushLow = false ∧ callPushLow t s = { s with wait := .pushLow t }) ∨
    (s.memAnswers .pushLow = true ∧ s.sp.toNat < s.memSize ∧
      callPushLow t s = { s with mem := s.mem.write s.sp.toNat (lowByte s.pc), sp := s.sp - 1, pc := t }) ∨
    (s.memAnswers .pushLow = true ∧ s.memSize ≤ s.sp.toNat ∧ callPushLow t s = s.raiseOutOfBounds (stackAddr s.sp)) := by
  unfold callPushLow
  cases hm : s.memAnswers .pushLow with
  | false => exact .inl ⟨rfl, if_neg (by simp)⟩
  | true =>
    rcases push_cases (lowByte s.pc) s with ⟨h, e⟩ | ⟨h, e⟩
    · exact .inr (.inl ⟨rfl, h, by rw [e]; rfl⟩)
    · exact .inr (.inr ⟨rfl, h, by rw [e]; rfl⟩)

/-- Everything the first push of a CALL can do: what follows it is `callPushLow` (R39, R73, R81). -/
theorem callPushHigh_cases (t : Addr) (s : State) :
    (s.memAnswers .pushHigh = false ∧ callPushHigh t s = { s with wait := .pushHigh t }) ∨
    (s.memAnswers .pushHigh = true ∧ s.sp.toNat < s.memSize ∧
      callPushHigh t s = callPushLow t { s with mem := s.mem.write s.sp.toNat (highByte s.pc), sp := s.sp - 1 }) ∨
    (s.memAnswers .pushHigh = true ∧ s.memSize ≤ s.sp.toNat ∧ callPushHigh t s = s.raiseOutOfBounds (stackAddr s.sp)) := by
  unfold callPushHigh
  cases hm : s.memAnswers .pushHigh with
  | false => exact .inl ⟨rfl, if_neg (by simp)⟩
  | true =>
    rcases push_cases (highByte s.pc) s with ⟨h, e⟩ | ⟨h, e⟩
    · exact .inr (.inl ⟨rfl, h, by rw [e]; rfl⟩)
    · exact .inr (.inr ⟨rfl, h, by rw [e]; rfl⟩)

/-- Everything the second pop of a RET can do (R39, R73, R82). -/
theorem retPopHigh_cases (lo : Byte) (s : State) :
    (s.memAnswers .popHigh = false ∧ retPopHigh lo s = { s with wait := .popHigh lo }) ∨
    (s.memAnswers .popHigh = true ∧ (s.sp + 1).toNat < s.memSize ∧
      retPopHigh lo s = { s with sp := s.sp + 1, pc := addr16Of lo (s.mem.read (s.sp + 1).toNat) }) ∨
    (s.memAnswers .popHigh = true ∧ s.memSize ≤ (s.sp + 1).toNat ∧
      retPopHigh lo s = s.raiseOutOfBounds (stackAddr (s.sp + 1))) := by
  unfold retPopHigh
  cases hm : s.memAnswers .popHigh with
  | false => exact .inl ⟨rfl, if_neg (by simp)⟩
  | true =>
    rcases pop_cases s with ⟨h, e⟩ | ⟨h, e⟩
    · exact .inr (.inl ⟨rfl, h, by rw [e]; rfl⟩)
    · exact .inr (.inr ⟨rfl, h, by rw [e]; rfl⟩)

/-- Everything the first pop of a RET can do: what follows it is `retPopHigh` (R39, R73, R82). -/
theorem retPopLow_cases (s : State) :
    (s.memAnswers .popLow = false ∧ retPopLow s = { s with wait := .popLow }) ∨
    (s.memAnswers .popLow = true ∧ (s.sp + 1).toNat < s.memSize ∧
      retPopLow s = retPopHigh (s.mem.read (s.sp + 1).toNat) { s with sp := s.sp + 1 }) ∨
    (s.memAnswers .popLow = true ∧ s.memSize ≤ (s.sp + 1).toNat ∧ retPopLow s = s.raiseOutOfBounds (stackAddr (s.sp + 1))) := by
  unfold retPopLow
  cases hm : s.memAnswers .popLow with
  | false => exact .inl ⟨rfl, if_neg (by simp)⟩
  | true =>
    rcases pop_cases s with ⟨h, e⟩ | ⟨h, e⟩
    · exact .inr (.inl ⟨rfl, h, by rw [e]; rfl⟩)
    · exact .inr (.inr ⟨rfl, h, by rw [e]; rfl⟩)

end Sys2Proof.Machine
end

