-- ==== Sys2Proof/Laws/Exec.lean ====
section
/-! SUPPORT. Everything an instruction can do, once: the shapes of its next state. -/

namespace Sys2Proof.Machine

open Sys2Proof.Safety

/-- The shapes of a next state of exec, each with the instruction and the condition that give it. -/
inductive ExecShape (i : Instr) (s : State) : State → Prop where
  | nop (x : Nibble) (hi : i = .nop x) : ExecShape i s s
  | result (r : Reg) (v : Byte) (hd : destReg i s = some r) (hi : ∀ n, i ≠ .inp n) : ExecShape i s (s.writeResult r v)
  | token (n : Nibble) (r : Reg) (k : Int) (ks : List Int) (hi : i = .inp n) (hr : regOfIndex (indexOfNibble n) = some r)
      (hk : s.input = k :: ks) : ExecShape i s (State.writeResult { s with input := ks } r (tokenByte k))
  | store (n : Nibble) (d : Byte) (r : Reg) (hi : i = .store n d) (hr : regOfIndex (indexOfNibble n) = some r)
      (hm : s.memAnswers .store = true) (hd : d.toNat < s.memSize) : ExecShape i s { s with mem := s.mem.write d.toNat (s.getReg r) }
  | jump (x : Nibble) (a : Addr) (hi : i = .jmp x a ∨ i = .jz x a ∧ s.z = true) : ExecShape i s { s with pc := a }
  | fallThrough (x : Nibble) (a : Addr) (hi : i = .jz x a) (hz : s.z = false) : ExecShape i s s
  | call (x : Nibble) (a : Addr) (hi : i = .call x a) (hm : s.memAnswers .pushHigh = true) (hl : s.memAnswers .pushLow = true)
      (h1 : s.sp.toNat < s.memSize) (h2 : (s.sp - 1).toNat < s.memSize) :
      ExecShape i s { s with
        mem := (s.mem.write s.sp.toNat (highByte s.pc)).write (s.sp - 1).toNat (lowByte s.pc), sp := s.sp - 1 - 1, pc := a }
  | callAborts (x : Nibble) (a : Addr) (hi : i = .call x a) (hm : s.memAnswers .pushHigh = true) (h1 : s.memSize ≤ s.sp.toNat) :
      ExecShape i s (s.raiseOutOfBounds (stackAddr s.sp))
  | callAbortsHalfway (x : Nibble) (a : Addr) (hi : i = .call x a) (hm : s.memAnswers .pushHigh = true)
      (hl : s.memAnswers .pushLow = true) (h1 : s.sp.toNat < s.memSize)
      (h2 : s.memSize ≤ (s.sp - 1).toNat) :
      ExecShape i s (State.raiseOutOfBounds { s with mem := s.mem.write s.sp.toNat (highByte s.pc), sp := s.sp - 1 }
        (stackAddr (s.sp - 1)))
  | ret (x : Nibble) (hi : i = .ret x) (hm : s.memAnswers .popLow = true) (hl : s.memAnswers .popHigh = true)
      (h1 : (s.sp + 1).toNat < s.memSize) (h2 : (s.sp + 1 + 1).toNat < s.memSize) :
      ExecShape i s { s with
        sp := s.sp + 1 + 1, pc := addr16Of (s.mem.read (s.sp + 1).toNat) (s.mem.read (s.sp + 1 + 1).toNat) }
  | retAborts (x : Nibble) (hi : i = .ret x) (hm : s.memAnswers .popLow = true) (h1 : s.memSize ≤ (s.sp + 1).toNat) :
      ExecShape i s (s.raiseOutOfBounds (stackAddr (s.sp + 1)))
  | retAbortsHalfway (x : Nibble) (hi : i = .ret x) (hm : s.memAnswers .popLow = true) (hl : s.memAnswers .popHigh = true)
      (h1 : (s.sp + 1).toNat < s.memSize) (h2 : s.memSize ≤ (s.sp + 1 + 1).toNat) :
      ExecShape i s (State.raiseOutOfBounds { s with sp := s.sp + 1 } (stackAddr (s.sp + 1 + 1)))
  | emit (n : Nibble) (r : Reg) (hi : i = .out n) (hr : regOfIndex (indexOfNibble n) = some r) (ho : s.outputReady = true) :
      ExecShape i s (s.emit (s.getReg r))
  | diskWrite (n : Nibble) (a : Addr) (r : Reg) (hi : i = .diskWrite n a) (hr : regOfIndex (indexOfNibble n) = some r)
      (hd : s.diskReady = true) (ha : a.toNat < s.diskSize) :
      ExecShape i s { s with disk := s.disk.write a.toNat (s.getReg r) }
  | waitStore (n : Nibble) (d : Byte) (r : Reg) (hi : i = .store n d) (hr : regOfIndex (indexOfNibble n) = some r)
      (hm : s.memAnswers .store = false) : ExecShape i s { s with wait := .store (addr8Of d) (s.getReg r) }
  | waitPushHigh (x : Nibble) (a : Addr) (hi : i = .call x a) (hm : s.memAnswers .pushHigh = false) :
      ExecShape i s { s with wait := .pushHigh a }
  | waitPushLow (x : Nibble) (a : Addr) (hi : i = .call x a) (hm : s.memAnswers .pushHigh = true)
      (hl : s.memAnswers .pushLow = false) (h1 : s.sp.toNat < s.memSize) :
      ExecShape i s { s with mem := s.mem.write s.sp.toNat (highByte s.pc), sp := s.sp - 1, wait := .pushLow a }
  | waitPopLow (x : Nibble) (hi : i = .ret x) (hm : s.memAnswers .popLow = false) : ExecShape i s { s with wait := .popLow }
  | waitPopHigh (x : Nibble) (hi : i = .ret x) (hm : s.memAnswers .popLow = true) (hl : s.memAnswers .popHigh = false)
      (h1 : (s.sp + 1).toNat < s.memSize) :
      ExecShape i s { s with sp := s.sp + 1, wait := .popHigh (s.mem.read (s.sp + 1).toNat) }
  | waitIn (n : Nibble) (r : Reg) (hi : i = .inp n) (hr : regOfIndex (indexOfNibble n) = some r) (hk : s.input = []) :
      ExecShape i s { s with wait := .inRead r }
  | waitOut (n : Nibble) (r : Reg) (hi : i = .out n) (hr : regOfIndex (indexOfNibble n) = some r) (ho : s.outputReady = false) :
      ExecShape i s { s with wait := .outWrite (s.getReg r) }
  | waitDiskRead (n : Nibble) (a : Addr) (r : Reg) (hi : i = .diskRead n a) (hr : regOfIndex (indexOfNibble n) = some r)
      (hd : s.diskReady = false) : ExecShape i s { s with wait := .diskRead r a }
  | waitDiskWrite (n : Nibble) (a : Addr) (r : Reg) (hi : i = .diskWrite n a) (hr : regOfIndex (indexOfNibble n) = some r)
      (hd : s.diskReady = false) : ExecShape i s { s with wait := .diskWrite a (s.getReg r) }
  | halt (x : Nibble) (hi : i = .halt x) : ExecShape i s s.raiseHalt
  | unrecognized (op x : Nibble) (hi : op = 0xD ∧ i = .unrecognizedD x ∨ op = 0xE ∧ i = .unrecognizedE x) :
      ExecShape i s (s.raiseUnrecognized (wordOf op x))
  | illegalRegister (k : Byte) (hi : i.firstIllegal = some k) : ExecShape i s (s.raiseIllegalRegister k)
  | storeAborts (n : Nibble) (d : Byte) (hi : i = .store n d) (hl : i.firstIllegal = none) (hm : s.memAnswers .store = true)
      (h : s.memSize ≤ d.toNat) :
      ExecShape i s (s.raiseOutOfBounds (addr8Of d))
  | diskAborts (n : Nibble) (a : Addr) (hi : i = .diskRead n a ∨ i = .diskWrite n a) (hl : i.firstIllegal = none)
      (hd : s.diskReady = true) (h : s.diskSize ≤ a.toNat) : ExecShape i s (s.raiseOutOfBounds a)

theorem firstIllegal_one_none {k : Byte} {r : Reg} (h : regOfIndex k = some r) : [k].find? (fun k => 3 < k.toNat) = none := by
  have := regOfIndex_eq_none_iff k
  simp_all

theorem firstIllegal_one_some {k : Byte} (h : regOfIndex k = none) : [k].find? (fun k => 3 < k.toNat) = some k := by
  have := (regOfIndex_eq_none_iff k).1 h
  simp [this]

theorem firstIllegal_two_first {k m : Byte} (h : regOfIndex k = none) : [k, m].find? (fun k => 3 < k.toNat) = some k := by
  have := (regOfIndex_eq_none_iff k).1 h
  simp [this]

theorem firstIllegal_two_second {k m : Byte} {r : Reg} (h : regOfIndex k = some r) (hm : regOfIndex m = none) :
    [k, m].find? (fun k => 3 < k.toNat) = some m := by
  have h1 := regOfIndex_eq_none_iff k
  have h2 := (regOfIndex_eq_none_iff m).1 hm
  simp_all

/-- The one inversion of exec: a next state has one of the shapes. -/
theorem exec_shape {i : Instr} {s t : State} (h : exec i s = .next t) : ExecShape i s t := by
  cases i with
  | nop x => cases h; exact .nop x rfl
  | load n imm8 =>
    rcases withReg_cases (indexOfNibble n) s fun i => s.writeResult i imm8 with ⟨r, hr, e⟩ | ⟨hr, e⟩ <;>
      simp only [exec, execLoad, e, Host.Outcome.next.injEq] at h <;> subst h
    · exact .result r _ (by simp [destReg, hr]) (by simp)
    · exact .illegalRegister _ (firstIllegal_one_some hr)
  | store n d =>
    rcases withReg_cases (indexOfNibble n) s fun i => storeByte (addr8Of d) (s.getReg i) s with ⟨r, hr, e⟩ | ⟨hr, e⟩ <;>
      simp only [exec, execStore, e, Host.Outcome.next.injEq] at h <;> subst h
    · rcases storeByte_cases (addr8Of d) (s.getReg r) s with ⟨hm, e⟩ | ⟨hm, hd, e⟩ | ⟨hm, hd, e⟩ <;> rw [e]
      · exact .waitStore n d r rfl hr hm
      · rw [addr8Of_toNat] at *; exact .store n d r rfl hr hm hd
      · rw [addr8Of_toNat] at hd; exact .storeAborts n d rfl (firstIllegal_one_none hr) hm hd
    · exact .illegalRegister _ (firstIllegal_one_some hr)
  | add n m =>
    rcases withReg_cases (indexOfNibble n) s
      fun i => withReg m s fun j => s.writeResult i (aluAdd (s.getReg i) (s.getReg j)) with ⟨r, hr, e⟩ | ⟨hr, e⟩ <;>
      simp only [exec, execAdd, e, Host.Outcome.next.injEq] at h <;> subst h
    · rcases withReg_cases m s fun j => s.writeResult r (aluAdd (s.getReg r) (s.getReg j)) with ⟨q, hq, e⟩ | ⟨hq, e⟩ <;> rw [e]
      · exact .result r _ (by simp [destReg, hr, hq]) (by simp)
      · exact .illegalRegister _ (firstIllegal_two_second hr hq)
    · exact .illegalRegister _ (firstIllegal_two_first hr)
  | sub n m =>
    rcases withReg_cases (indexOfNibble n) s
      fun i => withReg m s fun j => s.writeResult i (aluSub (s.getReg i) (s.getReg j)) with ⟨r, hr, e⟩ | ⟨hr, e⟩ <;>
      simp only [exec, execSub, e, Host.Outcome.next.injEq] at h <;> subst h
    · rcases withReg_cases m s fun j => s.writeResult r (aluSub (s.getReg r) (s.getReg j)) with ⟨q, hq, e⟩ | ⟨hq, e⟩ <;> rw [e]
      · exact .result r _ (by simp [destReg, hr, hq]) (by simp)
      · exact .illegalRegister _ (firstIllegal_two_second hr hq)
    · exact .illegalRegister _ (firstIllegal_two_first hr)
  | jmp x a => cases h; exact .jump x a (.inl rfl)
  | jz x a =>
    simp only [exec, execJz, Host.Outcome.next.injEq] at h
    by_cases hz : s.z = true
    · rw [if_pos hz] at h; subst h; exact .jump x a (.inr ⟨rfl, hz⟩)
    · rw [if_neg hz] at h; subst h; exact .fallThrough x a rfl (by simpa using hz)
  | call x a =>
    cases h
    rcases callPushHigh_cases a s with ⟨hm, e⟩ | ⟨hm, h1, e⟩ | ⟨hm, h1, e⟩ <;> rw [e]
    · exact .waitPushHigh x a rfl hm
    · rcases callPushLow_cases a { s with mem := s.mem.write s.sp.toNat (highByte s.pc), sp := s.sp - 1 } with
        ⟨hl, e⟩ | ⟨hl, h2, e⟩ | ⟨hl, h2, e⟩ <;> rw [e]
      · exact .waitPushLow x a rfl hm hl h1
      · exact .call x a rfl hm hl h1 h2
      · exact .callAbortsHalfway x a rfl hm hl h1 h2
    · exact .callAborts x a rfl hm h1
  | ret x =>
    cases h
    rcases retPopLow_cases s with ⟨hm, e⟩ | ⟨hm, h1, e⟩ | ⟨hm, h1, e⟩ <;> rw [e]
    · exact .waitPopLow x rfl hm
    · rcases retPopHigh_cases (s.mem.read (s.sp + 1).toNat) { s with sp := s.sp + 1 } with
        ⟨hl, e⟩ | ⟨hl, h2, e⟩ | ⟨hl, h2, e⟩ <;> rw [e]
      · exact .waitPopHigh x rfl hm hl h1
      · exact .ret x rfl hm hl h1 h2
      · exact .retAbortsHalfway x rfl hm hl h1 h2
    · exact .retAborts x rfl hm h1
  | inp n =>
    rcases withReg_cases (indexOfNibble n) s fun i => inRead i s with ⟨r, hr, e⟩ | ⟨hr, e⟩ <;>
      simp only [exec, execIn, e, Host.Outcome.next.injEq] at h <;> subst h
    · rcases inRead_cases r s with ⟨hk, e⟩ | ⟨k, ks, hk, e⟩ <;> rw [e]
      · exact .waitIn n r rfl hr hk
      · exact .token n r k ks rfl hr hk
    · exact .illegalRegister _ (firstIllegal_one_some hr)
  | out n =>
    rcases withReg_cases (indexOfNibble n) s fun i => outWrite (s.getReg i) s with ⟨r, hr, e⟩ | ⟨hr, e⟩ <;>
      simp only [exec, execOut, e, Host.Outcome.next.injEq] at h <;> subst h
    · rcases outWrite_cases (s.getReg r) s with ⟨ho, e⟩ | ⟨ho, e⟩ <;> rw [e]
      · exact .emit n r rfl hr ho
      · exact .waitOut n r rfl hr ho
    · exact .illegalRegister _ (firstIllegal_one_some hr)
  | diskRead n a =>
    rcases withReg_cases (indexOfNibble n) s fun i => diskReadInto i a s with ⟨r, hr, e⟩ | ⟨hr, e⟩ <;>
      simp only [exec, execDiskRead, e, Host.Outcome.next.injEq] at h <;> subst h
    · rcases diskReadInto_cases r a s with ⟨hd, e⟩ | ⟨hd, ha, e⟩ | ⟨hd, ha, e⟩ <;> rw [e]
      · exact .waitDiskRead n a r rfl hr hd
      · exact .result r _ (by simp [destReg, hr, hd, ha]) (by simp)
      · exact .diskAborts n a (.inl rfl) (firstIllegal_one_none hr) hd ha
    · exact .illegalRegister _ (firstIllegal_one_some hr)
  | diskWrite n a =>
    rcases withReg_cases (indexOfNibble n) s fun i => diskWriteFrom a (s.getReg i) s with ⟨r, hr, e⟩ | ⟨hr, e⟩ <;>
      simp only [exec, execDiskWrite, e, Host.Outcome.next.injEq] at h <;> subst h
    · rcases diskWriteFrom_cases a (s.getReg r) s with ⟨hd, e⟩ | ⟨hd, ha, e⟩ | ⟨hd, ha, e⟩ <;> rw [e]
      · exact .waitDiskWrite n a r rfl hr hd
      · exact .diskWrite n a r rfl hr hd ha
      · exact .diskAborts n a (.inr rfl) (firstIllegal_one_none hr) hd ha
    · exact .illegalRegister _ (firstIllegal_one_some hr)
  | unrecognizedD x => cases h; exact .unrecognized 0xD x (.inl ⟨rfl, rfl⟩)
  | unrecognizedE x => cases h; exact .unrecognized 0xE x (.inr ⟨rfl, rfl⟩)
  | halt x => cases h; exact .halt x rfl

/-! The next state of each instruction under the condition that gives it: the other direction of the shapes. -/

section

variable {s : State} {n : Nibble} {r q : Reg} {a : Addr}

theorem exec_load_of (h : regOfIndex (indexOfNibble n) = some r) (v : Byte) :
    exec (.load n v) s = .next (s.writeResult r v) := by simp [exec, execLoad, h]

theorem exec_add_of (h : regOfIndex (indexOfNibble n) = some r) {m : Byte} (hm : regOfIndex m = some q) :
    exec (.add n m) s = .next (s.writeResult r (aluAdd (s.getReg r) (s.getReg q))) := by simp [exec, execAdd, h, hm]

theorem exec_sub_of (h : regOfIndex (indexOfNibble n) = some r) {m : Byte} (hm : regOfIndex m = some q) :
    exec (.sub n m) s = .next (s.writeResult r (aluSub (s.getReg r) (s.getReg q))) := by simp [exec, execSub, h, hm]

theorem exec_store_of_lt (h : regOfIndex (indexOfNibble n) = some r) {d : Byte} (hm : s.memAnswers .store = true)
    (hd : d.toNat < s.memSize) : exec (.store n d) s = .next { s with mem := s.mem.write d.toNat (s.getReg r) } := by
  simp [exec, execStore, h, storeByte, hm, memWrite, hd]

theorem exec_store_of_ge (h : regOfIndex (indexOfNibble n) = some r) {d : Byte} (hm : s.memAnswers .store = true)
    (hd : s.memSize ≤ d.toNat) : exec (.store n d) s = .next (s.raiseOutOfBounds (addr8Of d)) := by
  simp [exec, execStore, h, storeByte, hm, memWrite, Nat.not_lt.2 hd]

theorem exec_store_of_not_answered (h : regOfIndex (indexOfNibble n) = some r) {d : Byte} (hm : s.memAnswers .store = false) :
    exec (.store n d) s = .next { s with wait := .store (addr8Of d) (s.getReg r) } := by
  simp [exec, execStore, h, storeByte, hm]

/-! CALL and RET: the stages, then the whole. -/

theorem callPushLow_of_lt {t : Addr} (hm : s.memAnswers .pushLow = true) (h : s.sp.toNat < s.memSize) :
    callPushLow t s = { s with mem := s.mem.write s.sp.toNat (lowByte s.pc), sp := s.sp - 1, pc := t } := by
  simp [callPushLow, hm, push_of_lt _ h]

theorem callPushLow_of_ge {t : Addr} (hm : s.memAnswers .pushLow = true) (h : s.memSize ≤ s.sp.toNat) :
    callPushLow t s = s.raiseOutOfBounds (stackAddr s.sp) := by
  rcases push_cases (lowByte s.pc) s with ⟨h', _⟩ | ⟨_, e⟩
  · omega
  · simp [callPushLow, hm, e]

theorem callPushLow_of_not_answered {t : Addr} (hm : s.memAnswers .pushLow = false) :
    callPushLow t s = { s with wait := .pushLow t } := by simp [callPushLow, hm]

theorem retPopHigh_of_lt {lo : Byte} (hm : s.memAnswers .popHigh = true) (h : (s.sp + 1).toNat < s.memSize) :
    retPopHigh lo s = { s with sp := s.sp + 1, pc := addr16Of lo (s.mem.read (s.sp + 1).toNat) } := by
  simp only [retPopHigh, hm, pop_of_lt h, if_true]

theorem retPopHigh_of_ge {lo : Byte} (hm : s.memAnswers .popHigh = true) (h : s.memSize ≤ (s.sp + 1).toNat) :
    retPopHigh lo s = s.raiseOutOfBounds (stackAddr (s.sp + 1)) := by
  rcases pop_cases s with ⟨h', _⟩ | ⟨_, e⟩
  · omega
  · simp only [retPopHigh, hm, e, if_true]

theorem retPopHigh_of_not_answered {lo : Byte} (hm : s.memAnswers .popHigh = false) :
    retPopHigh lo s = { s with wait := .popHigh lo } := by simp [retPopHigh, hm]

/-- A CALL whose first push is made goes on with the second. -/
theorem exec_call_of_first {x : Nibble} (hm : s.memAnswers .pushHigh = true) (h : s.sp.toNat < s.memSize) :
    exec (.call x a) s =
      .next (callPushLow a { s with mem := s.mem.write s.sp.toNat (highByte s.pc), sp := s.sp - 1 }) := by
  simp only [exec, execCall, callPushHigh, hm, push_of_lt _ h, if_true]

theorem exec_call_of_lt {x : Nibble} (hm : s.memAnswers .pushHigh = true) (hl : s.memAnswers .pushLow = true)
    (h1 : s.sp.toNat < s.memSize) (h2 : (s.sp - 1).toNat < s.memSize) :
    exec (.call x a) s = .next { s with
      mem := (s.mem.write s.sp.toNat (highByte s.pc)).write (s.sp - 1).toNat (lowByte s.pc), sp := s.sp - 1 - 1, pc := a } := by
  rw [exec_call_of_first hm h1]
  exact congrArg Host.Outcome.next
    (callPushLow_of_lt (s := { s with mem := s.mem.write s.sp.toNat (highByte s.pc), sp := s.sp - 1 }) hl h2)

theorem exec_call_of_second_ge {x : Nibble} (hm : s.memAnswers .pushHigh = true) (hl : s.memAnswers .pushLow = true)
    (h1 : s.sp.toNat < s.memSize) (h2 : s.memSize ≤ (s.sp - 1).toNat) :
    exec (.call x a) s = .next (State.raiseOutOfBounds
      { s with mem := s.mem.write s.sp.toNat (highByte s.pc), sp := s.sp - 1 } (stackAddr (s.sp - 1))) := by
  rw [exec_call_of_first hm h1]
  exact congrArg Host.Outcome.next
    (callPushLow_of_ge (s := { s with mem := s.mem.write s.sp.toNat (highByte s.pc), sp := s.sp - 1 }) hl h2)

theorem exec_call_of_second_not_answered {x : Nibble} (hm : s.memAnswers .pushHigh = true) (hl : s.memAnswers .pushLow = false)
    (h1 : s.sp.toNat < s.memSize) :
    exec (.call x a) s =
      .next { s with mem := s.mem.write s.sp.toNat (highByte s.pc), sp := s.sp - 1, wait := .pushLow a } := by
  rw [exec_call_of_first hm h1]
  exact congrArg Host.Outcome.next
    (callPushLow_of_not_answered (s := { s with mem := s.mem.write s.sp.toNat (highByte s.pc), sp := s.sp - 1 }) hl)

theorem exec_call_of_ge {x : Nibble} (hm : s.memAnswers .pushHigh = true) (h : s.memSize ≤ s.sp.toNat) :
    exec (.call x a) s = .next (s.raiseOutOfBounds (stackAddr s.sp)) := by
  rcases push_cases (highByte s.pc) s with ⟨h', _⟩ | ⟨_, e⟩
  · omega
  · simp only [exec, execCall, callPushHigh, hm, e, if_true]

theorem exec_call_of_not_answered {x : Nibble} (hm : s.memAnswers .pushHigh = false) :
    exec (.call x a) s = .next { s with wait := .pushHigh a } := by simp [exec, execCall, callPushHigh, hm]

/-- A RET whose first pop is made goes on with the second. -/
theorem exec_ret_of_first {x : Nibble} (hm : s.memAnswers .popLow = true) (h : (s.sp + 1).toNat < s.memSize) :
    exec (.ret x) s = .next (retPopHigh (s.mem.read (s.sp + 1).toNat) { s with sp := s.sp + 1 }) := by
  simp only [exec, execRet, retPopLow, hm, pop_of_lt h, if_true]

theorem exec_ret_of_lt {x : Nibble} (hm : s.memAnswers .popLow = true) (hl : s.memAnswers .popHigh = true)
    (h1 : (s.sp + 1).toNat < s.memSize) (h2 : (s.sp + 1 + 1).toNat < s.memSize) :
    exec (.ret x) s = .next { s with
      sp := s.sp + 1 + 1, pc := addr16Of (s.mem.read (s.sp + 1).toNat) (s.mem.read (s.sp + 1 + 1).toNat) } := by
  rw [exec_ret_of_first hm h1]
  exact congrArg Host.Outcome.next (retPopHigh_of_lt (s := { s with sp := s.sp + 1 }) hl h2)

theorem exec_ret_of_second_ge {x : Nibble} (hm : s.memAnswers .popLow = true) (hl : s.memAnswers .popHigh = true)
    (h1 : (s.sp + 1).toNat < s.memSize) (h2 : s.memSize ≤ (s.sp + 1 + 1).toNat) :
    exec (.ret x) s = .next (State.raiseOutOfBounds { s with sp := s.sp + 1 } (stackAddr (s.sp + 1 + 1))) := by
  rw [exec_ret_of_first hm h1]
  exact congrArg Host.Outcome.next (retPopHigh_of_ge (s := { s with sp := s.sp + 1 }) hl h2)

theorem exec_ret_of_second_not_answered {x : Nibble} (hm : s.memAnswers .popLow = true) (hl : s.memAnswers .popHigh = false)
    (h1 : (s.sp + 1).toNat < s.memSize) :
    exec (.ret x) s = .next { s with sp := s.sp + 1, wait := .popHigh (s.mem.read (s.sp + 1).toNat) } := by
  rw [exec_ret_of_first hm h1]
  exact congrArg Host.Outcome.next (retPopHigh_of_not_answered (s := { s with sp := s.sp + 1 }) hl)

theorem exec_ret_of_ge {x : Nibble} (hm : s.memAnswers .popLow = true) (h : s.memSize ≤ (s.sp + 1).toNat) :
    exec (.ret x) s = .next (s.raiseOutOfBounds (stackAddr (s.sp + 1))) := by
  rcases pop_cases s with ⟨h', _⟩ | ⟨_, e⟩
  · omega
  · simp only [exec, execRet, retPopLow, hm, e, if_true]

theorem exec_ret_of_not_answered {x : Nibble} (hm : s.memAnswers .popLow = false) :
    exec (.ret x) s = .next { s with wait := .popLow } := by simp [exec, execRet, retPopLow, hm]

/-! The channel and persistent-store instructions. -/

theorem exec_inp_of_token (h : regOfIndex (indexOfNibble n) = some r) {k : Int} {ks : List Int} (hk : s.input = k :: ks) :
    exec (.inp n) s = .next (State.writeResult { s with input := ks } r (tokenByte k)) := by
  rcases inRead_cases r s with ⟨h', _⟩ | ⟨t, ts, h', e⟩
  · simp [hk] at h'
  · rw [hk] at h'
    cases h'
    simp only [exec, execIn, withReg_of_some h, e]

theorem exec_inp_of_empty (h : regOfIndex (indexOfNibble n) = some r) (hk : s.input = []) :
    exec (.inp n) s = .next { s with wait := .inRead r } := by
  rcases inRead_cases r s with ⟨_, e⟩ | ⟨t, ts, h', _⟩
  · simp only [exec, execIn, withReg_of_some h, e]
  · simp [hk] at h'

theorem exec_out_of_ready (h : regOfIndex (indexOfNibble n) = some r) (ho : s.outputReady = true) :
    exec (.out n) s = .next (s.emit (s.getReg r)) := by
  simp only [exec, execOut, withReg_of_some h, outWrite]
  rw [if_pos ho]

theorem exec_out_of_not_ready (h : regOfIndex (indexOfNibble n) = some r) (ho : s.outputReady = false) :
    exec (.out n) s = .next { s with wait := .outWrite (s.getReg r) } := by
  simp only [exec, execOut, withReg_of_some h, outWrite]
  rw [if_neg (by simp [ho])]

theorem exec_diskRead_of_lt (h : regOfIndex (indexOfNibble n) = some r) (hd : s.diskReady = true) (ha : a.toNat < s.diskSize) :
    exec (.diskRead n a) s = .next (s.writeResult r (s.disk.read a.toNat)) := by
  simp [exec, execDiskRead, h, diskReadInto, hd, diskRead, ha]

theorem exec_diskRead_of_ge (h : regOfIndex (indexOfNibble n) = some r) (hd : s.diskReady = true) (ha : s.diskSize ≤ a.toNat) :
    exec (.diskRead n a) s = .next (s.raiseOutOfBounds a) := by
  simp [exec, execDiskRead, h, diskReadInto, hd, diskRead, Nat.not_lt.2 ha]

theorem exec_diskRead_of_not_ready (h : regOfIndex (indexOfNibble n) = some r) (hd : s.diskReady = false) :
    exec (.diskRead n a) s = .next { s with wait := .diskRead r a } := by
  simp [exec, execDiskRead, h, diskReadInto, hd]

theorem exec_diskWrite_of_lt (h : regOfIndex (indexOfNibble n) = some r) (hd : s.diskReady = true) (ha : a.toNat < s.diskSize) :
    exec (.diskWrite n a) s = .next { s with disk := s.disk.write a.toNat (s.getReg r) } := by
  simp [exec, execDiskWrite, h, diskWriteFrom, hd, diskWrite, ha]

theorem exec_diskWrite_of_ge (h : regOfIndex (indexOfNibble n) = some r) (hd : s.diskReady = true) (ha : s.diskSize ≤ a.toNat) :
    exec (.diskWrite n a) s = .next (s.raiseOutOfBounds a) := by
  simp [exec, execDiskWrite, h, diskWriteFrom, hd, diskWrite, Nat.not_lt.2 ha]

theorem exec_diskWrite_of_not_ready (h : regOfIndex (indexOfNibble n) = some r) (hd : s.diskReady = false) :
    exec (.diskWrite n a) s = .next { s with wait := .diskWrite a (s.getReg r) } := by
  simp [exec, execDiskWrite, h, diskWriteFrom, hd]

end

end Sys2Proof.Machine
end

