-- ==== Sys2Proof/Laws/Engine.lean ====
section
/-! SUPPORT. The cases of a step: which agent moves, and what the engine does in each run state. -/

namespace Sys2Proof.Machine

open Sys2Proof.Safety

/-! Which agent moves. -/

theorem step_of_host_nil {s : State} (h : s.host = []) : step s = engineStep s := by simp [step, machineStep, h]

theorem step_of_host_cons {s : State} {m : HostMove} {ms : List HostMove} (h : s.host = m :: ms) :
    step s = hostMove m { s with host := ms } := by simp [step, machineStep, h]

/-! The engine. -/

theorem engineStep_halted {s : State} (h : s.runState = .halted) : engineStep s = .next s := by simp [engineStep, h]

theorem engineStep_aborted {s : State} (h : s.runState = .aborted) : engineStep s = .fault (.aborted s.stopAddr) := by
  simp [engineStep, h]

theorem engineStep_running {s : State} (h : s.runState = .running) :
    engineStep s = match fetching s with
      | some f => runFetched f
      | none => .next (resume s) := by
  cases hf : fetching s <;> simp [engineStep, h, hf]

/-- The engine at the beginning of an instruction. -/
theorem engineStep_of_no_wait {s : State} (h : s.runState = .running) (hw : s.wait = .none) :
    engineStep s = runFetched (fetchInstr s) := by
  simp [engineStep_running h, fetching, hw]

/-- The engine whose instruction waits after its fetch. -/
theorem engineStep_waiting {s : State} (h : s.runState = .running) (hf : fetching s = none) :
    engineStep s = .next (resume s) := by
  simp [engineStep_running h, hf]

/-- Everything an engine step that answers a next state can do. -/
theorem engineStep_cases {s t : State} (h : engineStep s = .next t) :
    (s.runState = .halted ∧ t = s) ∨
    (s.runState = .running ∧ ∃ u, fetching s = some (.ok u) ∧ exec u.fetched u = .next t) ∨
    (s.runState = .running ∧ fetching s = some (.error t)) ∨
    (s.runState = .running ∧ fetching s = none ∧ t = resume s) := by
  cases hr : s.runState with
  | halted => rw [engineStep_halted hr] at h; cases h; exact .inl ⟨rfl, rfl⟩
  | aborted => rw [engineStep_aborted hr] at h; cases h
  | running =>
    rw [engineStep_running hr] at h
    cases hf : fetching s with
    | none => rw [hf] at h; cases h; exact .inr (.inr (.inr ⟨rfl, rfl, rfl⟩))
    | some f =>
      rw [hf] at h
      cases f with
      | ok u => exact .inr (.inl ⟨rfl, u, rfl, h⟩)
      | error u => cases h; exact .inr (.inr (.inl ⟨rfl, rfl⟩))

/-- Everything a step that takes up a waiting transaction after the fetch can do: it is one of the shared operations, with nothing
pending. -/
theorem resume_cases {s : State} (hf : fetching s = none) :
    (∃ a v, s.wait = .store a v ∧ resume s = storeByte a v { s with wait := .none }) ∨
    (∃ t, s.wait = .pushHigh t ∧ resume s = callPushHigh t { s with wait := .none }) ∨
    (∃ t, s.wait = .pushLow t ∧ resume s = callPushLow t { s with wait := .none }) ∨
    (s.wait = .popLow ∧ resume s = retPopLow { s with wait := .none }) ∨
    (∃ lo, s.wait = .popHigh lo ∧ resume s = retPopHigh lo { s with wait := .none }) ∨
    (∃ r, s.wait = .inRead r ∧ resume s = inRead r { s with wait := .none }) ∨
    (∃ v, s.wait = .outWrite v ∧ resume s = outWrite v { s with wait := .none }) ∨
    (∃ r a, s.wait = .diskRead r a ∧ resume s = diskReadInto r a { s with wait := .none }) ∨
    (∃ a v, s.wait = .diskWrite a v ∧ resume s = diskWriteFrom a v { s with wait := .none }) := by
  cases hw : s.wait <;> simp [fetching, hw] at hf <;> simp [resume, hw]

/-- Everything a step that answers a next state can do: an engine step, or one of the host's other moves. -/
theorem step_cases {s t : State} (h : step s = .next t) :
    (∃ ms, (s.host = [] ∧ ms = [] ∨ s.host = .pass :: ms) ∧ engineStep { s with host := ms } = .next t) ∨
    (∃ ms, s.host = .reset :: ms ∧ t = hostReset { s with host := ms }) ∨
    (∃ e ms, s.host = .start e :: ms ∧ s.runState = .halted ∧ 0 < s.diskSize ∧ t = State.startAt { s with host := ms } e) ∨
    (∃ e ms, s.host = .start e :: ms ∧ s.runState ≠ .halted ∧ t = { s with host := ms }) ∨
    (∃ a v ms, s.host = .load a v :: ms ∧ s.runState ≠ .running ∧ a.toNat < s.memSize ∧
      t = { s with mem := s.mem.write a.toNat v, host := ms }) ∨
    (∃ a v ms, s.host = .load a v :: ms ∧ s.runState ≠ .running ∧ s.memSize ≤ a.toNat ∧ t = { s with host := ms }) ∨
    (∃ k ms, s.host = .supply k :: ms ∧ t = { s with input := s.input ++ [k], host := ms }) ∨
    (∃ p b ms, s.host = .setReady p b :: ms ∧ t = setReady p b { s with host := ms }) ∨
    (∃ m ms, s.host = .stallMemory m :: ms ∧ t = { s with memStall := m, host := ms }) := by
  cases hh : s.host with
  | nil =>
    rw [step_of_host_nil hh] at h
    refine .inl ⟨[], .inl ⟨rfl, rfl⟩, ?_⟩
    have : ({ s with host := [] } : State) = s := by rw [← hh]
    rwa [this]
  | cons m ms =>
    rw [step_of_host_cons hh] at h
    cases m with
    | pass => exact .inl ⟨ms, .inr rfl, h⟩
    | reset => cases h; exact .inr (.inl ⟨ms, rfl, rfl⟩)
    | start e =>
      simp only [hostMove, hostStart] at h
      split at h
      · next hr =>
        split at h
        · cases h
        · next hd => cases h; exact .inr (.inr (.inl ⟨e, ms, rfl, hr, Nat.pos_of_ne_zero hd, rfl⟩))
      · next hr => cases h; exact .inr (.inr (.inr (.inl ⟨e, ms, rfl, hr, rfl⟩)))
    | load a v =>
      simp only [hostMove, hostLoad] at h
      split at h
      · cases h
      · next hn =>
        rcases memWrite_cases a v { s with host := ms } with ⟨ha, e⟩ | ⟨ha, e⟩ <;> rw [e] at h <;> cases h
        · exact .inr (.inr (.inr (.inr (.inl ⟨a, v, ms, rfl, hn, ha, rfl⟩))))
        · exact .inr (.inr (.inr (.inr (.inr (.inl ⟨a, v, ms, rfl, hn, ha, rfl⟩)))))
    | supply k => cases h; exact .inr (.inr (.inr (.inr (.inr (.inr (.inl ⟨k, ms, rfl, rfl⟩))))))
    | setReady p b => cases h; exact .inr (.inr (.inr (.inr (.inr (.inr (.inr (.inl ⟨p, b, ms, rfl, rfl⟩)))))))
    | stallMemory m => cases h; exact .inr (.inr (.inr (.inr (.inr (.inr (.inr (.inr ⟨m, ms, rfl, rfl⟩)))))))

/-! Fetching a whole instruction from a conforming memory that answers (R29, R65). -/

theorem fetchExtra_conforming {k : Nat} : ∀ {s : State} {ex : List Byte}, s.memStall = none → 65536 ≤ s.memSize →
    BytesAt s.mem s.pc ex → ex.length = k →
    fetchExtra k s = .ok { s with pc := s.pc + BitVec.ofNat 16 k, extra := s.extra ++ ex } := by
  induction k with
  | zero => intro s ex _ _ _ h; cases ex <;> simp [fetchExtra] at h ⊢
  | succ k ih =>
    intro s ex hs hm hb hl
    cases ex with
    | nil => simp at hl
    | cons b ex =>
      obtain ⟨h1, h2⟩ := hb
      simp only [fetchExtra, fetch_conforming hm, State.memAnswers_of_none hs, if_true]
      rw [ih (s := { s with pc := s.pc + 1, extra := s.extra ++ [s.mem.read s.pc.toNat] }) hs hm h2 (by simpa using hl)]
      simp [h1, BitVec.add_assoc]
      rw [← BitVec.ofNat_add]
      congr 1
      omega

theorem fetchInstr_conforming {s : State} {w : Byte} {ex : List Byte} (hs : s.memStall = none) (hm : 65536 ≤ s.memSize)
    (hb : BytesAt s.mem s.pc (w :: ex)) (hl : ex.length = extraCount w) : fetchInstr s = .ok (afterFetch s w ex) := by
  obtain ⟨h1, h2⟩ := hb
  simp only [fetchInstr, fetchWord, fetch_conforming hm, h1, State.memAnswers_of_none hs, if_true]
  rw [fetchExtra_conforming (s := { s with pc := s.pc + 1, ir := w, extra := [] }) hs hm h2 hl]
  simp [afterFetch, hl]

/-- A fetch does not look at the host's moves. -/
theorem fetchExtra_with_host (ms : List HostMove) : ∀ (k : Nat) (s : State), fetchExtra k { s with host := ms } =
    match fetchExtra k s with
    | .ok t => .ok { t with host := ms }
    | .error t => .error { t with host := ms } := by
  intro k
  induction k with
  | zero => intro s; rfl
  | succ k ih =>
    intro s
    rcases fetchExtra_succ_cases k s with ⟨h1, h2, e⟩ | ⟨h1, h2, e⟩ | ⟨h1, e⟩ <;>
      rcases fetchExtra_succ_cases k { s with host := ms } with ⟨h1', h2', e'⟩ | ⟨h1', h2', e'⟩ | ⟨h1', e'⟩ <;>
      first | exact Bool.noConfusion (h1.symm.trans h1') |
        exact absurd h2 (Nat.not_lt.2 h2') | exact absurd h2 (Nat.not_le.2 h2') | (rw [e, e']; done) | (rw [e, e']; rfl) |
        (rw [e, e']; exact ih { s with pc := s.pc + 1, extra := s.extra ++ [s.mem.read s.pc.toNat] })

theorem fetchInstr_with_host (ms : List HostMove) (s : State) : fetchInstr { s with host := ms } =
    match fetchInstr s with
    | .ok t => .ok { t with host := ms }
    | .error t => .error { t with host := ms } := by
  rcases fetchWord_cases s with ⟨h1, h2, e⟩ | ⟨h1, h2, e⟩ | ⟨h1, e⟩ <;>
    rcases fetchWord_cases { s with host := ms } with ⟨h1', h2', e'⟩ | ⟨h1', h2', e'⟩ | ⟨h1', e'⟩ <;>
    first | exact Bool.noConfusion (h1.symm.trans h1') |
      exact absurd h2 (Nat.not_lt.2 h2') | exact absurd h2 (Nat.not_le.2 h2') | (simp only [fetchInstr, e, e']; done) |
      (simp only [fetchInstr, e, e']; rfl) |
      (simp only [fetchInstr, e, e']
       exact fetchExtra_with_host ms _ { s with pc := s.pc + 1, ir := s.mem.read s.pc.toNat, extra := [] })

/-- What the engine fetches next does not depend on the host's moves. -/
theorem fetching_with_host (ms : List HostMove) {s u : State} (h : fetching { s with host := ms } = some (.ok u)) :
    fetching s = some (.ok { u with host := s.host }) := by
  have back : ∀ f : Except State State, (match f with
      | .ok t => Except.ok { t with host := ms }
      | .error t => .error { t with host := ms }) = .ok u → ∀ (g : Except State State),
      g = (match f with
      | .ok t => Except.ok { t with host := s.host }
      | .error t => .error { t with host := s.host }) → g = .ok { u with host := s.host } := by
    intro f hf g hg
    cases f with
    | ok t => cases hf; exact hg
    | error t => cases hf
  cases hw : s.wait <;> simp only [fetching, hw, Option.some.injEq, reduceCtorEq] at h ⊢
  · rw [fetchInstr_with_host ms { s with wait := .none }] at h
    exact back _ h _ (by rw [← fetchInstr_with_host, ← hw])
  · rw [fetchInstr_with_host ms { s with wait := .none }] at h
    exact back _ h _ (fetchInstr_with_host s.host { s with wait := .none })
  · rw [fetchExtra_with_host ms _ { s with wait := .none }] at h
    exact back _ h _ (fetchExtra_with_host s.host _ { s with wait := .none })

/-- A fetch of `k` bytes moves pc by `k` modulo 65536 (R17). -/
theorem fetchExtra_pc : ∀ (k : Nat) {s t : State}, fetchExtra k s = .ok t → t.pc = s.pc + BitVec.ofNat 16 k := by
  intro k
  induction k with
  | zero => intro s t h; cases h; simp
  | succ k ih =>
    intro s t h
    rcases fetchExtra_succ_cases k s with ⟨_, _, e⟩ | ⟨_, _, e⟩ | ⟨_, e⟩ <;> rw [e] at h
    · rw [ih h]
      simp only
      rw [BitVec.add_assoc, Nat.add_comm, BitVec.ofNat_add]
      rfl
    · cases h
    · cases h

/-- After a whole fetch pc is past the word and its extra bytes (R71). -/
theorem fetchInstr_pc {s t : State} (h : fetchInstr s = .ok t) : t.pc = s.pc + 1 + BitVec.ofNat 16 (extraCount t.ir) := by
  rcases fetchWord_cases s with ⟨_, _, e⟩ | ⟨_, _, e⟩ | ⟨_, e⟩ <;> simp only [fetchInstr, e] at h
  · have hir : t.ir = s.mem.read s.pc.toNat := by rw [(fetchExtra_ok h).1]
    rw [fetchExtra_pc _ h, hir]
  · cases h
  · cases h

end Sys2Proof.Machine
end

