-- ==== Sys2Proof/Laws/Abandon.lean ====
section
/-! SUPPORT. What the transactions of an abandoned instruction can change, whichever of them took effect (R108). -/

namespace Sys2Proof.Machine

/-- From `s` to `t` the stores and the channels differ only as transactions of instruction `i` make them differ; a memory write only where
the memory answers it. -/
structure TransactionsOf (i : Instr) (s t : State) : Prop where
  memSize : t.memSize = s.memSize
  diskSize : t.diskSize = s.diskSize
  host : t.host = s.host
  mem : ∀ b, t.mem.read b = s.mem.read b ∨
    (∃ n d r, i = .store n d ∧ regOfIndex (indexOfNibble n) = some r ∧ s.memAnswers .store = true ∧ b = d.toNat ∧
      t.mem.read b = s.getReg r) ∨
    (∃ x a, i = .call x a ∧ s.memAnswers .pushHigh = true ∧ (b = s.sp.toNat ∧ t.mem.read b = highByte s.pc ∨
      s.memAnswers .pushLow = true ∧ b = (s.sp - 1).toNat ∧ t.mem.read b = lowByte s.pc))
  disk : ∀ b, t.disk.read b = s.disk.read b ∨
    ∃ n a r, i = .diskWrite n a ∧ regOfIndex (indexOfNibble n) = some r ∧ b = a.toNat ∧ t.disk.read b = s.getReg r
  input : t.input = s.input ∨ t.input = s.input.drop 1 ∧ ∃ n, i = .inp n
  output : t.output = s.output ∨
    ∃ n r, i = .out n ∧ regOfIndex (indexOfNibble n) = some r ∧ t.output = s.output ++ [s.getReg r]

theorem TransactionsOf.refl (i : Instr) (s : State) : TransactionsOf i s s :=
  ⟨rfl, rfl, rfl, fun _ => .inl rfl, fun _ => .inl rfl, .inl rfl, .inl rfl⟩

/-- A byte of a store after a write: the one written, or as before. -/
theorem Memory.read_write_cases (m : Memory) (a b : Nat) (v : Byte) :
    b = a ∧ (m.write a v).read b = v ∨ (m.write a v).read b = m.read b := by
  by_cases h : b = a
  · exact .inl ⟨h, by rw [h, Memory.read_write_self]⟩
  · exact .inr (Memory.read_write_ne m v h)

/-- A push that may be out of bounds: the byte and sp, or nothing. -/
theorem stateOr_push (v : Byte) (s : State) :
    stateOr s (push v s) = { s with mem := s.mem.write s.sp.toNat v, sp := s.sp - 1 } ∨ stateOr s (push v s) = s := by
  rcases push_cases v s with ⟨_, e⟩ | ⟨_, e⟩ <;> rw [e]
  · exact .inl rfl
  · exact .inr rfl

/-- A persistent-store write that may be out of bounds. -/
theorem stateOr_diskWrite (a : Addr) (v : Byte) (s : State) :
    stateOr s (diskWrite a v s) = { s with disk := s.disk.write a.toNat v } ∨ stateOr s (diskWrite a v s) = s := by
  rcases diskWrite_cases a v s with ⟨_, e⟩ | ⟨_, e⟩ <;> rw [e]
  · exact .inl rfl
  · exact .inr rfl

/-- The transactions of a whole instruction. -/
theorem transactionsOf_all (i : Instr) (s : State) (hw : s.wait = .none) : TransactionsOf i s (afterAllTransactions i s) := by
  obtain ⟨t, e⟩ : ∃ t, exec i s = .next t := by cases i <;> exact ⟨_, rfl⟩
  unfold afterAllTransactions
  rw [e]
  have hs := exec_shape e
  clear e
  cases hs
  all_goals
    try (refine ⟨?_, ?_, ?_, ?_, ?_, ?_, ?_⟩ <;>
      simp [commitWait, hw, State.raiseHalt, State.raiseUnrecognized, State.raiseIllegalRegister, State.raiseOutOfBounds] <;> done)
  case token n r k ks hi hr hk =>
    simp only [commitWait, State.writeResult_wait, hw]
    exact ⟨by simp, by simp, by simp, by simp, by simp, .inr ⟨by simp [hk], n, hi⟩, by simp⟩
  case store n d r hi hr hm hd =>
    simp only [commitWait, hw]
    refine ⟨rfl, rfl, rfl, fun b => ?_, fun _ => .inl rfl, .inl rfl, .inl rfl⟩
    rcases s.mem.read_write_cases d.toNat b (s.getReg r) with ⟨hb, e⟩ | e
    · exact .inr (.inl ⟨n, d, r, hi, hr, hm, hb, e⟩)
    · exact .inl e
  case call x a hi hm hl h1 h2 =>
    simp only [commitWait, hw]
    refine ⟨rfl, rfl, rfl, fun b => ?_, fun _ => .inl rfl, .inl rfl, .inl rfl⟩
    rcases (s.mem.write s.sp.toNat (highByte s.pc)).read_write_cases (s.sp - 1).toNat b (lowByte s.pc) with ⟨hb, e⟩ | e
    · exact .inr (.inr ⟨x, a, hi, hm, .inr ⟨hl, hb, e⟩⟩)
    · rcases s.mem.read_write_cases s.sp.toNat b (highByte s.pc) with ⟨hb, e'⟩ | e'
      · exact .inr (.inr ⟨x, a, hi, hm, .inl ⟨hb, e.trans e'⟩⟩)
      · exact .inl (e.trans e')
  case callAbortsHalfway x a hi hm hl h1 h2 =>
    simp only [commitWait, hw, State.raiseOutOfBounds, State.stop]
    refine ⟨rfl, rfl, rfl, fun b => ?_, fun _ => .inl rfl, .inl rfl, .inl rfl⟩
    rcases s.mem.read_write_cases s.sp.toNat b (highByte s.pc) with ⟨hb, e⟩ | e
    · exact .inr (.inr ⟨x, a, hi, hm, .inl ⟨hb, e⟩⟩)
    · exact .inl e
  case emit n r hi hr ho =>
    simp only [commitWait, hw, State.emit]
    exact ⟨rfl, rfl, rfl, fun _ => .inl rfl, fun _ => .inl rfl, .inl rfl, .inr ⟨n, r, hi, hr, rfl⟩⟩
  case diskWrite n a r hi hr hd ha =>
    simp only [commitWait, hw]
    refine ⟨rfl, rfl, rfl, fun _ => .inl rfl, fun b => ?_, .inl rfl, .inl rfl⟩
    rcases s.disk.read_write_cases a.toNat b (s.getReg r) with ⟨hb, e⟩ | e
    · exact .inr ⟨n, a, r, hi, hr, hb, e⟩
    · exact .inl e
  case waitPushLow x a hi hm hl h1 =>
    simp only [commitWait]
    refine ⟨rfl, rfl, rfl, fun b => ?_, fun _ => .inl rfl, .inl rfl, .inl rfl⟩
    rcases s.mem.read_write_cases s.sp.toNat b (highByte s.pc) with ⟨hb, e⟩ | e
    · exact .inr (.inr ⟨x, a, hi, hm, .inl ⟨hb, e⟩⟩)
    · exact .inl e
  case waitIn n r hi hr hk =>
    exact ⟨rfl, rfl, rfl, fun _ => .inl rfl, fun _ => .inl rfl, .inl (by simp [commitWait, hk]), .inl rfl⟩
  case waitOut n r hi hr hk =>
    exact ⟨rfl, rfl, rfl, fun _ => .inl rfl, fun _ => .inl rfl, .inl rfl, .inr ⟨n, r, hi, hr, rfl⟩⟩
  case waitDiskWrite n a r hi hr hk =>
    simp only [commitWait]
    rcases stateOr_diskWrite a (s.getReg r) { s with wait := .diskWrite a (s.getReg r) } with e | e <;> rw [e]
    · refine ⟨rfl, rfl, rfl, fun _ => .inl rfl, fun b => ?_, .inl rfl, .inl rfl⟩
      rcases s.disk.read_write_cases a.toNat b (s.getReg r) with ⟨hb, e⟩ | e
      · exact .inr ⟨n, a, r, hi, hr, hb, e⟩
      · exact .inl e
    · exact ⟨rfl, rfl, rfl, fun _ => .inl rfl, fun _ => .inl rfl, .inl rfl, .inl rfl⟩

/-- The first push of a CALL: made where it is answered and in bounds. -/
theorem afterFirstPush_cases (s : State) :
    s.memAnswers .pushHigh = true ∧ afterFirstPush s = { s with mem := s.mem.write s.sp.toNat (highByte s.pc), sp := s.sp - 1 } ∨
    afterFirstPush s = s := by
  unfold afterFirstPush
  split
  · next hm => exact (stateOr_push (highByte s.pc) s).imp_left fun e => ⟨hm, e⟩
  · exact .inr rfl

/-- The first transaction alone. -/
theorem transactionsOf_first (i : Instr) (s : State) (hw : s.wait = .none) :
    TransactionsOf i s (afterFirstTransaction i s) := by
  cases i <;> simp only [afterFirstTransaction] <;> try exact transactionsOf_all _ s hw
  case call x a =>
    rcases afterFirstPush_cases s with ⟨hm, e⟩ | e <;> rw [e]
    · refine ⟨rfl, rfl, rfl, fun b => ?_, fun _ => .inl rfl, .inl rfl, .inl rfl⟩
      rcases s.mem.read_write_cases s.sp.toNat b (highByte s.pc) with ⟨hb, e⟩ | e
      · exact .inr (.inr ⟨x, a, rfl, hm, .inl ⟨hb, e⟩⟩)
      · exact .inl e
    · exact .refl _ _

/-- Any number of an instruction's transactions. -/
theorem transactionsOf_some (k : Nat) (i : Instr) (s : State) (hw : s.wait = .none) :
    TransactionsOf i s (afterTransactions k i s) :=
  match k with
  | 0 => .refl _ _
  | 1 => transactionsOf_first i s hw
  | _ + 2 => transactionsOf_all i s hw

/-! The transactions that a waiting instruction has still to make. -/

/-- From `s` to `t` the stores and the channels differ only as the waiting transaction of `s`, or the push after it, makes them differ; a
memory write only where the memory answers it now. -/
structure RestOf (s t : State) : Prop where
  memSize : t.memSize = s.memSize
  diskSize : t.diskSize = s.diskSize
  host : t.host = s.host
  mem : ∀ b, t.mem.read b = s.mem.read b ∨
    (∃ a v, s.wait = .store a v ∧ s.memAnswers .store = true ∧ b = a.toNat ∧ t.mem.read b = v) ∨
    (∃ a, s.wait = .pushHigh a ∧ s.memAnswers .pushHigh = true ∧ (b = s.sp.toNat ∧ t.mem.read b = highByte s.pc ∨
      s.memAnswers .pushLow = true ∧ b = (s.sp - 1).toNat ∧ t.mem.read b = lowByte s.pc)) ∨
    (∃ a, s.wait = .pushLow a ∧ s.memAnswers .pushLow = true ∧ b = s.sp.toNat ∧ t.mem.read b = lowByte s.pc)
  disk : ∀ b, t.disk.read b = s.disk.read b ∨ ∃ a v, s.wait = .diskWrite a v ∧ b = a.toNat ∧ t.disk.read b = v
  input : t.input = s.input ∨ t.input = s.input.drop 1 ∧ ∃ r, s.wait = .inRead r
  output : t.output = s.output ∨ ∃ v, s.wait = .outWrite v ∧ t.output = s.output ++ [v]

/-- Where the stores, the channels and the host's moves are the same. -/
theorem RestOf.of_same {s t : State} (h1 : t.memSize = s.memSize) (h2 : t.diskSize = s.diskSize) (h3 : t.host = s.host)
    (h4 : t.mem = s.mem) (h5 : t.disk = s.disk) (h6 : t.input = s.input) (h7 : t.output = s.output) : RestOf s t :=
  ⟨h1, h2, h3, fun _ => .inl (by rw [h4]), fun _ => .inl (by rw [h5]), .inl h6, .inl h7⟩

theorem RestOf.of_store {s t : State} {a : Addr} {v : Byte} (hw : s.wait = .store a v) (hm : s.memAnswers .store = true)
    (h : t = { s with mem := s.mem.write a.toNat v, wait := t.wait }) : RestOf s t := by
  rw [h]
  refine ⟨rfl, rfl, rfl, fun b => ?_, fun _ => .inl rfl, .inl rfl, .inl rfl⟩
  exact (s.mem.read_write_cases a.toNat b v).symm.imp_right fun ⟨hb, e⟩ => .inl ⟨a, v, hw, hm, hb, e⟩

theorem RestOf.of_pushHigh {s t : State} {a : Addr} (hw : s.wait = .pushHigh a) (hm : s.memAnswers .pushHigh = true)
    (h : t = { s with mem := s.mem.write s.sp.toNat (highByte s.pc), sp := t.sp, wait := t.wait }) : RestOf s t := by
  rw [h]
  refine ⟨rfl, rfl, rfl, fun b => ?_, fun _ => .inl rfl, .inl rfl, .inl rfl⟩
  exact (s.mem.read_write_cases s.sp.toNat b _).symm.imp_right fun ⟨hb, e⟩ =>
    .inr (.inl ⟨a, hw, hm, .inl ⟨hb, e⟩⟩)

theorem RestOf.of_pushLow {s t : State} {a : Addr} (hw : s.wait = .pushLow a) (hm : s.memAnswers .pushLow = true)
    (h : t = { s with mem := s.mem.write s.sp.toNat (lowByte s.pc), sp := t.sp, pc := t.pc, wait := t.wait }) : RestOf s t := by
  rw [h]
  refine ⟨rfl, rfl, rfl, fun b => ?_, fun _ => .inl rfl, .inl rfl, .inl rfl⟩
  exact (s.mem.read_write_cases s.sp.toNat b _).symm.imp_right fun ⟨hb, e⟩ => .inr (.inr ⟨a, hw, hm, hb, e⟩)

theorem RestOf.of_diskWrite {s t : State} {a : Addr} {v : Byte} (hw : s.wait = .diskWrite a v)
    (h : t = { s with disk := s.disk.write a.toNat v, wait := t.wait }) : RestOf s t := by
  rw [h]
  refine ⟨rfl, rfl, rfl, fun _ => .inl rfl, fun b => ?_, .inl rfl, .inl rfl⟩
  exact (s.disk.read_write_cases a.toNat b v).symm.imp_right fun ⟨hb, e⟩ => ⟨a, v, hw, hb, e⟩

theorem commitWait_of_none {s : State} (hw : s.wait = .none) : commitWait s = s := by unfold commitWait; rw [hw]

/-- The transaction in flight alone: a memory write is none. -/
theorem restOf_commit (s : State) : RestOf s (commitWait s) := by
  have same : RestOf s s := .of_same rfl rfl rfl rfl rfl rfl rfl
  obtain ⟨w, hw⟩ : ∃ w, s.wait = w := ⟨_, rfl⟩
  unfold commitWait
  cases w <;> rw [hw] <;> try exact same
  case inRead r => exact ⟨rfl, rfl, rfl, fun _ => .inl rfl, fun _ => .inl rfl, .inr ⟨rfl, r, hw⟩, .inl rfl⟩
  case outWrite v => exact ⟨rfl, rfl, rfl, fun _ => .inl rfl, fun _ => .inl rfl, .inl rfl, .inr ⟨v, hw, rfl⟩⟩
  case diskWrite a v => rcases stateOr_diskWrite a v s with e | e <;> simp only [e] <;> first | exact same | exact .of_diskWrite hw rfl

/-- The waiting transaction and what follows it, as far as the collaborators answer. -/
theorem restOf_all {s : State} (hf : fetching s = none) : RestOf s (afterRest s) := by
  unfold afterRest
  have same : ∀ t : State, t.wait = .none → t.memSize = s.memSize → t.diskSize = s.diskSize → t.host = s.host → t.mem = s.mem →
      t.disk = s.disk → t.input = s.input → t.output = s.output → RestOf s (commitWait t) :=
    fun t hw h1 h2 h3 h4 h5 h6 h7 => by
      rw [commitWait_of_none hw]; exact .of_same h1 h2 h3 h4 h5 h6 h7
  have again : ∀ w, s.wait = w → RestOf s (commitWait { s with wait := w }) := fun w hw => by
    rw [← hw]; exact restOf_commit s
  rcases resume_cases hf with ⟨a, v, hw, e⟩ | ⟨a, hw, e⟩ | ⟨a, hw, e⟩ | ⟨hw, e⟩ | ⟨lo, hw, e⟩ | ⟨r, hw, e⟩ | ⟨v, hw, e⟩ |
    ⟨r, a, hw, e⟩ | ⟨a, v, hw, e⟩ <;> rw [e]
  · rcases storeByte_cases a v { s with wait := .none } with ⟨_, e⟩ | ⟨hm, _, e⟩ | ⟨_, _, e⟩ <;> rw [e]
    · exact again _ hw
    · rw [commitWait_of_none rfl]; exact .of_store hw hm rfl
    · exact same _ rfl rfl rfl rfl rfl rfl rfl rfl
  · have h := transactionsOf_all (.call 0 a) { s with wait := .none } rfl
    refine ⟨h.memSize, h.diskSize, h.host, fun b => ?_, fun b => ?_, ?_, ?_⟩
    · rcases h.mem b with h | ⟨_, _, _, h, _⟩ | ⟨_, _, _, h⟩
      · exact .inl h
      · cases h
      · exact .inr (.inr (.inl ⟨a, hw, h⟩))
    · rcases h.disk b with h | ⟨_, _, _, h, _⟩
      · exact .inl h
      · cases h
    · rcases h.input with h | ⟨_, _, h⟩
      · exact .inl h
      · cases h
    · rcases h.output with h | ⟨_, _, h, _⟩
      · exact .inl h
      · cases h
  · rcases callPushLow_cases a { s with wait := .none } with ⟨_, e⟩ | ⟨hm, _, e⟩ | ⟨_, _, e⟩ <;> rw [e]
    · exact again _ hw
    · rw [commitWait_of_none rfl]; exact .of_pushLow hw hm rfl
    · exact same _ rfl rfl rfl rfl rfl rfl rfl rfl
  · rcases retPopLow_cases { s with wait := .none } with ⟨_, e⟩ | ⟨_, _, e⟩ | ⟨_, _, e⟩ <;> rw [e]
    · exact again _ hw
    · rcases retPopHigh_cases (s.mem.read (s.sp + 1).toNat) { s with wait := .none, sp := s.sp + 1 } with
        ⟨_, e⟩ | ⟨_, _, e⟩ | ⟨_, _, e⟩ <;> rw [e]
      · exact .of_same rfl rfl rfl rfl rfl rfl rfl
      · exact same _ rfl rfl rfl rfl rfl rfl rfl rfl
      · exact same _ rfl rfl rfl rfl rfl rfl rfl rfl
    · exact same _ rfl rfl rfl rfl rfl rfl rfl rfl
  · rcases retPopHigh_cases lo { s with wait := .none } with ⟨_, e⟩ | ⟨_, _, e⟩ | ⟨_, _, e⟩ <;> rw [e]
    · exact again _ hw
    · exact same _ rfl rfl rfl rfl rfl rfl rfl rfl
    · exact same _ rfl rfl rfl rfl rfl rfl rfl rfl
  · rcases inRead_cases r { s with wait := .none } with ⟨_, e⟩ | ⟨k, ks, hk, e⟩ <;> rw [e]
    · exact again _ hw
    · have hk : s.input = k :: ks := hk
      rw [commitWait_of_none (by simp)]
      exact ⟨by simp, by simp, by simp, fun _ => .inl (by simp), fun _ => .inl (by simp), .inr ⟨by simp [hk], r, hw⟩, .inl (by simp)⟩
  · rcases outWrite_cases v { s with wait := .none } with ⟨_, e⟩ | ⟨_, e⟩ <;> rw [e]
    · rw [commitWait_of_none rfl]
      exact ⟨rfl, rfl, rfl, fun _ => .inl rfl, fun _ => .inl rfl, .inl rfl, .inr ⟨v, hw, rfl⟩⟩
    · exact again _ hw
  · rcases diskReadInto_cases r a { s with wait := .none } with ⟨_, e⟩ | ⟨_, _, e⟩ | ⟨_, _, e⟩ <;> rw [e]
    · exact again _ hw
    · apply same <;> simp
    · exact same _ rfl rfl rfl rfl rfl rfl rfl rfl
  · rcases diskWriteFrom_cases a v { s with wait := .none } with ⟨_, e⟩ | ⟨_, _, e⟩ | ⟨_, _, e⟩ <;> rw [e]
    · exact again _ hw
    · rw [commitWait_of_none rfl]; exact .of_diskWrite hw rfl
    · exact same _ rfl rfl rfl rfl rfl rfl rfl rfl

/-- The first of them alone. -/
theorem restOf_first {s : State} (hf : fetching s = none) : RestOf s (afterWaiting 1 s) := by
  simp only [afterWaiting]
  split
  · next a hw =>
    rcases afterFirstPush_cases s with ⟨hm, e⟩ | e <;> rw [e]
    · exact .of_pushHigh hw hm rfl
    · exact .of_same rfl rfl rfl rfl rfl rfl rfl
  all_goals exact restOf_all hf

/-- Any number of the transactions that a waiting instruction has still to make. -/
theorem restOf_some (k : Nat) {s : State} (hf : fetching s = none) : RestOf s (afterWaiting k s) :=
  match k with
  | 0 => .of_same rfl rfl rfl rfl rfl rfl rfl
  | 1 => restOf_first hf
  | _ + 2 => restOf_all hf

end Sys2Proof.Machine
end

