-- ==== Sys2Proof/Laws/PerInstr.lean ====
section
/-! SUPPORT. Facts about every instruction as syntax, one lemma per constructor. -/

namespace Sys2Proof.Laws.EncodedLength

/-- The encoding has the instruction's length, 1 to 3 bytes, and its first byte carries the opcode in bits 7:4 and the operand in
bits 3:0 (R48, R49). -/
def Statement (i : Instr) : Prop :=
  (encode i).length = i.length ∧ 1 ≤ i.length ∧ i.length ≤ 3 ∧
  opcodeOf ((encode i).headD 0) = i.opcode ∧ operandOf ((encode i).headD 0) = i.operand

theorem opcodeOf_wordOf (o x : Nibble) : opcodeOf (wordOf o x) = o := by
  revert o x; decide

theorem operandOf_wordOf (o x : Nibble) : operandOf (wordOf o x) = x := by
  revert o x; decide

/-- What every constructor's lemma comes down to. -/
theorem of_extra {i : Instr} (h : i.extra.length = i.extraBytes) (h2 : i.extraBytes ≤ 2) : Statement i :=
  ⟨by simp [encode, Instr.length, h], by simp [Instr.length], by simp [Instr.length]; omega,
    by simp [encode, opcodeOf_wordOf], by simp [encode, operandOf_wordOf]⟩

theorem nop (x : Nibble) : Statement (.nop x) := of_extra rfl (by simp [Instr.extraBytes])
theorem load (n : Nibble) (imm8 : Byte) : Statement (.load n imm8) := of_extra rfl (by simp [Instr.extraBytes])
theorem store (n : Nibble) (addr8 : Byte) : Statement (.store n addr8) := of_extra rfl (by simp [Instr.extraBytes])
theorem add (n : Nibble) (m : Byte) : Statement (.add n m) := of_extra rfl (by simp [Instr.extraBytes])
theorem sub (n : Nibble) (m : Byte) : Statement (.sub n m) := of_extra rfl (by simp [Instr.extraBytes])
theorem jmp (x : Nibble) (addr16 : Addr) : Statement (.jmp x addr16) := of_extra rfl (by simp [Instr.extraBytes])
theorem jz (x : Nibble) (addr16 : Addr) : Statement (.jz x addr16) := of_extra rfl (by simp [Instr.extraBytes])
theorem call (x : Nibble) (addr16 : Addr) : Statement (.call x addr16) := of_extra rfl (by simp [Instr.extraBytes])
theorem ret (x : Nibble) : Statement (.ret x) := of_extra rfl (by simp [Instr.extraBytes])
theorem inp (n : Nibble) : Statement (.inp n) := of_extra rfl (by simp [Instr.extraBytes])
theorem out (n : Nibble) : Statement (.out n) := of_extra rfl (by simp [Instr.extraBytes])
theorem diskRead (n : Nibble) (addr16 : Addr) : Statement (.diskRead n addr16) := of_extra rfl (by simp [Instr.extraBytes])
theorem diskWrite (n : Nibble) (addr16 : Addr) : Statement (.diskWrite n addr16) := of_extra rfl (by simp [Instr.extraBytes])
theorem unrecognizedD (x : Nibble) : Statement (.unrecognizedD x) := of_extra rfl (by simp [Instr.extraBytes])
theorem unrecognizedE (x : Nibble) : Statement (.unrecognizedE x) := of_extra rfl (by simp [Instr.extraBytes])
theorem halt (x : Nibble) : Statement (.halt x) := of_extra rfl (by simp [Instr.extraBytes])

end Sys2Proof.Laws.EncodedLength
end

