-- ==== Sys2Proof/Laws/Decode.lean ====
section
/-! SUPPORT. The decoder by opcode, and how its parts fit the encoder's. -/

namespace Sys2Proof

open Sys2Proof.Laws.EncodedLength (opcodeOf_wordOf operandOf_wordOf)
open Sys2Proof.Machine (addr16Of_toNat)

/-- The decoder with the opcode known: `simp` picks the arm once `o` is a literal. -/
theorem decodeBytes_of_opcode {w : Byte} {o : Nibble} (h : opcodeOf w = o) (b1 b2 : Byte) :
    decodeBytes w b1 b2 = match o.getLsbD 3, o.getLsbD 2, o.getLsbD 1, o.getLsbD 0 with
      | false, false, false, false => .nop (operandOf w)
      | false, false, false, true  => .load (operandOf w) b1
      | false, false, true,  false => .store (operandOf w) b1
      | false, false, true,  true  => .add (operandOf w) b1
      | false, true,  false, false => .sub (operandOf w) b1
      | false, true,  false, true  => .jmp (operandOf w) (addr16Of b1 b2)
      | false, true,  true,  false => .jz (operandOf w) (addr16Of b1 b2)
      | false, true,  true,  true  => .call (operandOf w) (addr16Of b1 b2)
      | true,  false, false, false => .ret (operandOf w)
      | true,  false, false, true  => .inp (operandOf w)
      | true,  false, true,  false => .out (operandOf w)
      | true,  false, true,  true  => .diskRead (operandOf w) (addr16Of b1 b2)
      | true,  true,  false, false => .diskWrite (operandOf w) (addr16Of b1 b2)
      | true,  true,  false, true  => .unrecognizedD (operandOf w)
      | true,  true,  true,  false => .unrecognizedE (operandOf w)
      | true,  true,  true,  true  => .halt (operandOf w) := by
  subst h
  have h7 : (opcodeOf w).getLsbD 3 = w.getLsbD 7 := by simp [opcodeOf]
  have h6 : (opcodeOf w).getLsbD 2 = w.getLsbD 6 := by simp [opcodeOf]
  have h5 : (opcodeOf w).getLsbD 1 = w.getLsbD 5 := by simp [opcodeOf]
  have h4 : (opcodeOf w).getLsbD 0 = w.getLsbD 4 := by simp [opcodeOf]
  rw [h7, h6, h5, h4]
  rfl

/-- The two fields make the word (R48). -/
theorem wordOf_fields (w : Byte) : wordOf (opcodeOf w) (operandOf w) = w := by revert w; decide

theorem operand_decodeBytes (w b1 b2 : Byte) : (decodeBytes w b1 b2).operand = operandOf w := by
  unfold decodeBytes; split <;> rfl

theorem opcode_decodeBytes (w b1 b2 : Byte) : (decodeBytes w b1 b2).opcode = opcodeOf w := by
  generalize h : opcodeOf w = o
  rw [decodeBytes_of_opcode h]
  have : ∀ o : Nibble, o ∈ List.map (BitVec.ofNat 4) (List.range 16) := by decide
  have := this o
  simp [List.range, List.range.loop] at this
  rcases this with e | e | e | e | e | e | e | e | e | e | e | e | e | e | e | e <;> subst e <;> rfl

/-- The opcode alone fixes how many extra bytes there are (R49). -/
theorem extraBytes_decodeBytes (w b1 b2 : Byte) : (decodeBytes w b1 b2).extraBytes = extraCount w := by
  unfold extraCount decodeBytes
  split <;> rfl

theorem extra_length (i : Instr) : i.extra.length = i.extraBytes := by cases i <;> rfl

/-- Decoding the encoder's word and extra bytes. -/
theorem decodeBytes_encode (i : Instr) :
    decodeBytes (wordOf i.opcode i.operand) (i.extra.getD 0 0) (i.extra.getD 1 0) = i := by
  rw [decodeBytes_of_opcode (opcodeOf_wordOf _ _)]
  cases i <;> simp [Instr.opcode, Instr.operand, operandOf_wordOf, Instr.extra]

theorem extraCount_encode (i : Instr) : extraCount (wordOf i.opcode i.operand) = i.extraBytes := by
  rw [← extraBytes_decodeBytes _ (i.extra.getD 0 0) (i.extra.getD 1 0), decodeBytes_encode]

@[simp] theorem lowByte_addr16Of (lo hi : Byte) : lowByte (addr16Of lo hi) = lo := by
  apply BitVec.eq_of_toNat_eq
  have := lo.isLt
  have := hi.isLt
  simp only [lowByte, BitVec.extractLsb'_toNat, addr16Of_toNat, Nat.shiftRight_eq_div_pow]
  omega

@[simp] theorem highByte_addr16Of (lo hi : Byte) : highByte (addr16Of lo hi) = hi := by
  apply BitVec.eq_of_toNat_eq
  have := lo.isLt
  have := hi.isLt
  simp only [highByte, BitVec.extractLsb'_toNat, addr16Of_toNat, Nat.shiftRight_eq_div_pow]
  omega

/-- The extra bytes of what is decoded are the bytes it was decoded from. -/
theorem extra_decodeBytes (w b1 b2 : Byte) : (decodeBytes w b1 b2).extra = [b1, b2].take (extraCount w) := by
  rw [← extraBytes_decodeBytes w b1 b2]
  unfold decodeBytes
  split <;> simp [Instr.extra, Instr.extraBytes]

end Sys2Proof
end

