-- ==== Sys2Proof/Tests/Slice0.lean ====
section
/-! SUPPORT. Tests whose expected results are in the spec (95_test_vectors.md), and a witness for every statement with hypotheses. -/

namespace Sys2Proof.Tests

open Sys2Proof.Machine Sys2Proof.Safety

/-! Small states. -/

/-- The engine Running at `a` with the given bytes there, everything else as in `s`. -/
def prog (a : Addr) (bytes : List Byte) (s : State) : State :=
  { s with pc := a, runState := .running, mem := placeBytes bytes a s.mem }

/-- The state after reset made Running, as Start makes it. -/
def running : State := { State.reset with runState := .running }

/-- The next state of one step, if the step has one. -/
def after (s : State) : Option State :=
  match step s with
  | .next t => some t
  | .fault _ | .refused _ => none

/-- A byte that is not 0 at one address, in an otherwise fresh store. -/
def byteAt (a : Nat) (v : Byte) : Memory := [(a, v)]

/-! Decoding: the words of the opcode map written out bit by bit (30_encoding.md R48, R50, R58). -/

theorem test_decode_nop : decode [0b00000000] = .ok (.nop 0, []) := rfl
theorem test_decode_nop_ignored_nibble : decode [0b00001111] = .ok (.nop 0xF, []) := rfl
theorem test_decode_load : decode [0b00010010, 0b00000111] = .ok (.load 2 7, []) := rfl
theorem test_decode_store : decode [0b00100001, 0b10000000] = .ok (.store 1 0x80, []) := rfl
theorem test_decode_add : decode [0b00110010, 0b00000011] = .ok (.add 2 3, []) := rfl
theorem test_decode_sub : decode [0b01000001, 0b00000010] = .ok (.sub 1 2, []) := rfl
theorem test_decode_jmp : decode [0b01010000, 0b00110100, 0b00010010] = .ok (.jmp 0 0x1234, []) := rfl
theorem test_decode_jz : decode [0b01100000, 0b01000000, 0b00000000] = .ok (.jz 0 0x0040, []) := rfl
theorem test_decode_call : decode [0b01110000, 0b00000000, 0b00000011] = .ok (.call 0 0x0300, []) := rfl
theorem test_decode_ret : decode [0b10000000] = .ok (.ret 0, []) := rfl
theorem test_decode_in : decode [0b10010001] = .ok (.inp 1, []) := rfl
theorem test_decode_out : decode [0b10100011] = .ok (.out 3, []) := rfl
theorem test_decode_diskRead : decode [0b10110011, 0b00110100, 0b00010010] = .ok (.diskRead 3 0x1234, []) := rfl
theorem test_decode_diskWrite : decode [0b11000001, 0b00110100, 0b00010010] = .ok (.diskWrite 1 0x1234, []) := rfl
theorem test_decode_unrecognizedD : decode [0b11010111] = .ok (.unrecognizedD 7, []) := rfl
theorem test_decode_unrecognizedE : decode [0b11100101] = .ok (.unrecognizedE 5, []) := rfl
theorem test_decode_halt : decode [0b11110000] = .ok (.halt 0, []) := rfl

/-- W7 (90_conflicts.md C1): 0x1F is LOAD with register index 15, not a halt. -/
theorem test_decode_1F : decode [0x1F, 0x00] = .ok (.load 15 0, []) := rfl

theorem test_decode_rejects_nothing : decode [] = .error .noBytes := rfl
theorem test_decode_rejects_short : decode [0x50, 0x34] = .error (.truncated 0x50 2 1) := rfl
theorem test_decode_leaves_the_rest : decode [0x80, 0x00] = .ok (.ret 0, [0x00]) := rfl

theorem test_encode_jmp : encode (.jmp 0 0x1234) = [0x50, 0x34, 0x12] := by decide
theorem test_encode_add : encode (.add 2 3) = [0x32, 0x03] := by decide

/-- The table's numbering: the first byte is bits 7 to 0, the second bits 15 to 8; bits above the table's are zero. -/
theorem test_decodeTableWord : decodeTableWord 24 0x1234C1 = some (.diskWrite 1 0x1234) ∧
    decodeTableWord 16 0xFF0713 = some (.load 3 7) ∧ decodeTableWord 8 0xE0 = some (.unrecognizedE 0) := by decide

/-! WellFormed: each check refuses an ill-formed term (R51, R55, R56). -/

theorem test_wellFormed_refuses_opcode_D : (Instr.unrecognizedD 0).wellFormed = false := by decide
theorem test_wellFormed_refuses_opcode_E : (Instr.unrecognizedE 7).wellFormed = false := by decide
theorem test_wellFormed_refuses_first_register : (Instr.load 4 1).wellFormed = false := by decide
theorem test_wellFormed_refuses_second_register : (Instr.add 0 0x10).wellFormed = false := by decide
theorem test_wellFormed_accepts : (Instr.add 3 3).wellFormed = true ∧ (Instr.nop 0xF).wellFormed = true := by decide

/-! Data and ALU: vectors of 95_test_vectors.md. -/

/-- V-D2. -/
theorem test_nop_ignored_nibble :
    (after (prog 0x0100 [0x0F] { running with z := true })).map (fun t => (t.pc, t.z)) = some (0x0101, true) := by decide

/-- V-C13. -/
theorem test_nop_wraps_pc : (after (prog 0xFFFF [0x00] running)).map (·.pc) = some 0x0000 := by decide

/-- V-D3. -/
theorem test_load_zero : (after (prog 0x0000 [0x10, 0x00] { running with x0 := 0x33 })).map (fun t => (t.x0, t.z, t.pc)) =
    some (0x00, true, 0x0002) := by decide

/-- V-D5. -/
theorem test_load_illegal : (after (prog 0x0000 [0x14, 0x01] running)).map
    (fun t => (t.runState, t.stopCause, t.stopInfo, t.pc)) = some (.halted, .illegalRegister, 0x04, 0x0002) := by decide

/-- V-D6. -/
theorem test_store : (after (prog 0x0000 [0x21, 0x80] { running with x1 := 0x5A, z := true })).map
    (fun t => (t.mem.read 0x0080, t.z, t.pc)) = some (0x5A, true, 0x0002) := by decide

/-- V-D8: STORE into the next instruction. -/
theorem test_store_next : (after (prog 0x0003 [0x20, 0x05] { running with x0 := 0xF0 })).map
    (fun t => (t.mem.read 0x0005, t.pc)) = some (0xF0, 0x0005) := by decide

/-- W8: 200 + 200 is 144. -/
theorem test_add_wraps : (after (prog 0x0000 [0x30, 0x00] { running with x0 := 200 })).map (fun t => (t.x0, t.z)) =
    some (144, false) := by decide

/-- V-D14: m is the whole byte. -/
theorem test_add_illegal_m : (after (prog 0x0000 [0x30, 0x10] running)).map (fun t => (t.stopCause, t.stopInfo)) =
    some (.illegalRegister, 0x10) := by decide

/-- V-D20: which operand is subtracted. -/
theorem test_sub_underflow : (after (prog 0x0000 [0x41, 0x02] { running with x1 := 3, x2 := 5 })).map (fun t => (t.x1, t.x2, t.z)) =
    some (0xFE, 5, false) := by decide

/-- V-D18. -/
theorem test_sub_self : (after (prog 0x0000 [0x42, 0x02] { running with x2 := 0xA7 })).map (fun t => (t.x2, t.z)) =
    some (0x00, true) := by decide

/-! Control flow. -/

/-- V-C2. -/
theorem test_jmp_ignored_nibble : (after (prog 0x0010 [0x5F, 0x00, 0x00] running)).map (·.pc) = some 0x0000 := by decide

/-- V-C12: the bytes are fetched across the wrap. -/
theorem test_jmp_across_wrap : (after (prog 0xFFFE [0x50, 0x78, 0x56] running)).map (·.pc) = some 0x5678 := by decide

/-- V-C3. -/
theorem test_jz_taken : (after (prog 0x0010 [0x60, 0x40, 0x00] { running with z := true })).map (·.pc) = some 0x0040 := by decide

/-- V-C4. -/
theorem test_jz_not_taken : (after (prog 0x0010 [0x60, 0x40, 0x00] running)).map (·.pc) = some 0x0013 := by decide

/-- V-C6: the stack wraps between the two pushes. -/
theorem test_call_wraps_sp : (after (prog 0x0200 [0x70, 0x00, 0x03] { running with sp := 0x00 })).map
    (fun t => (t.mem.read 0x0000, t.mem.read 0x00FF, t.sp, t.pc)) = some (0x02, 0x03, 0xFE, 0x0300) := by decide

/-- V-C5. -/
theorem test_call : (after (prog 0x0002 [0x70, 0x10, 0x00] running)).map
    (fun t => (t.mem.read 0x00FF, t.mem.read 0x00FE, t.sp, t.pc)) = some (0x00, 0x05, 0xFD, 0x0010) := by decide

/-- V-C10: an empty stack reads addresses 0 and 1. -/
theorem test_ret_empty : (after (prog 0x0000 [0x80, 0x00] running)).map (fun t => (t.pc, t.sp)) = some (0x0080, 0x01) := by decide

/-- V-C11. -/
theorem test_ret_wraps_sp : (after (prog 0x0100 [0x80] { running with sp := 0xFE, mem := [(0x0000, 0x12), (0x00FF, 0x34)] })).map
    (fun t => (t.pc, t.sp)) = some (0x1234, 0x00) := by decide

/-! Channels and persistent store. -/

/-- V-I1. -/
theorem test_in : (after (prog 0x0000 [0x91] { running with input := [300, 7] })).map (fun t => (t.x1, t.z, t.input)) =
    some (0x2C, false, [7]) := by decide

/-- V-I3. -/
theorem test_in_negative : (after (prog 0x0000 [0x92] { running with input := [-1] })).map (fun t => (t.x2, t.z)) =
    some (0xFF, false) := by decide

/-- V-I7. -/
theorem test_out : (after (prog 0x0000 [0xA3] { running with x3 := 0x2C, z := true, output := [9] })).map (fun t => (t.output, t.z)) =
    some ([9, 44], true) := by decide

/-- V-I11: the fresh store. -/
theorem test_diskRead_fresh : (after (prog 0x0000 [0xB0, 0xFF, 0xFF] { running with x0 := 1 })).map (fun t => (t.x0, t.z)) =
    some (0x00, true) := by decide

/-- V-I12. -/
theorem test_diskRead_out_of_bounds : (after (prog 0x0000 [0xB0, 0x00, 0x01] { running with x0 := 5, diskSize := 256 })).map
    (fun t => (t.runState, t.stopCause, t.stopAddr, t.pc, t.x0)) = some (.aborted, .outOfBounds, 0x0100, 0x0003, 5) := by decide

/-- V-I9. -/
theorem test_diskWrite : (after (prog 0x0000 [0xC1, 0x34, 0x12] { running with x1 := 0x2C, z := true })).map
    (fun t => (t.disk, t.pc, t.z)) = some (byteAt 0x1234 0x2C, 0x0003, true) := by decide

/-- V-I13. -/
theorem test_diskWrite_out_of_bounds : (after (prog 0x0000 [0xC0, 0x00, 0x01] { running with x0 := 5, diskSize := 256 })).map
    (fun t => (t.runState, t.stopAddr, t.disk)) = some (.aborted, 0x0100, []) := by decide

/-! Halts. -/

/-- V-H2. -/
theorem test_halt_wraps : (after (prog 0xFFFF [0xFF] running)).map (fun t => (t.runState, t.stopCause, t.pc)) =
    some (.halted, .halt, 0x0000) := by decide

/-- V-H3. -/
theorem test_unrecognizedD : (after (prog 0x0000 [0xD7] { running with x0 := 5 })).map
    (fun t => (t.runState, t.stopCause, t.stopInfo, t.pc, t.x0)) = some (.halted, .unrecognizedOpcode, 0xD7, 0x0001, 5) := by decide

/-- V-H4. -/
theorem test_unrecognizedE : (after (prog 0x0010 [0xE0, 0x12, 0x34] running)).map
    (fun t => (t.stopCause, t.stopInfo, t.pc, t.extra)) = some (.unrecognizedOpcode, 0xE0, 0x0011, []) := by decide

/-! Reset, Start and the rest of the machine. -/

/-- V-R1. -/
theorem test_reset :
    (after { State.reset with
      host := [.reset], runState := .aborted, x2 := 9, z := true, sp := 3, pc := 0x0100, stopCause := .outOfBounds,
      stopAddr := 0x0100, mem := byteAt 7 8, disk := byteAt 9 10 }) =
    some { State.reset with mem := byteAt 7 8, disk := byteAt 9 10 } := by decide

/-- V-R2. -/
theorem test_start : (after { State.reset with host := [.start 0x0200], stopCause := .halt, x1 := 7, sp := 0xFD, z := true }).map
    (fun t => (t.runState, t.pc, t.stopCause, t.x1, t.sp, t.z)) = some (.running, 0x0200, .none, 7, 0xFD, true) := by decide

/-- V-R3. -/
theorem test_start_aborted : (after { State.reset with host := [.start 0x0000], runState := .aborted, pc := 0x0005 }).map
    (fun t => (t.runState, t.pc)) = some (.aborted, 0x0005) := by decide

/-- R109: the host loads a byte before Start. -/
theorem test_load_move : (after { State.reset with host := [.load 0x0007 0xF0, .start 0x0007] }).map
    (fun t => (t.mem, t.runState, t.host)) = some (byteAt 7 0xF0, .halted, [.start 0x0007]) := by decide

/-- The host's question: the very next step after reset runs the placed instruction. -/
theorem test_withFetchWord : (after (State.reset.withFetchWord 16 0x0513)).map (fun t => (t.x3, t.pc)) = some (5, 0x0002) := by decide

/-- V-I6: IN waits without a change. -/
theorem test_in_waits : after { running with wait := .inRead .r1, ir := 0x91, pc := 1 } =
    some { running with wait := .inRead .r1, ir := 0x91, pc := 1 } := by decide

/-- R83: the wait ends with the token. -/
theorem test_wait_ends : (after { running with wait := .inRead .r1, ir := 0x91, pc := 1, input := [300] }).map
    (fun t => (t.x1, t.wait, t.pc, t.input)) = some (0x2C, .none, 1, []) := by decide

/-- R39, R81: a CALL whose second push the memory does not answer has made the first, and pc is still the address after it. -/
theorem test_wait_pushLow : (after (prog 0x0200 [0x70, 0x00, 0x03] { running with memStall := some .pushLow })).map
    (fun t => (t.mem.read 0x00FF, t.mem.read 0x00FE, t.sp, t.pc, t.wait)) =
    some (0x02, 0x00, 0xFE, 0x0203, .pushLow 0x0300) := by decide

/-- R39, R82: a RET that has popped 0x34 from 0x00FE goes on with the byte at 0x00FF once the memory answers. -/
theorem test_wait_popHigh_ends :
    (after { running with ir := 0x80, pc := 0x0011, sp := 0xFE, wait := .popHigh 0x34, mem := byteAt 0x00FF 0x12 }).map
    (fun t => (t.pc, t.sp, t.wait)) = some (0x1234, 0xFF, .none) := by decide

/-- R39, R65: a JMP whose second extra byte is not answered resumes with that byte alone. -/
theorem test_wait_fetchExtra_ends :
    (after { running with ir := 0x50, extra := [0x34], pc := 0x0012, wait := .fetchExtra, mem := byteAt 0x0012 0x12 }).map
    (fun t => (t.pc, t.extra, t.wait)) = some (0x1234, [0x34, 0x12], .none) := by decide

/-- R108: a memory write that is not answered stays unmade when Reset abandons its instruction, whatever the free value. -/
theorem test_reset_leaves_writes_unmade (k : Nat) :
    (abandon k { running with wait := .store 9 7, memStall := some .store }).mem = [] ∧
    (abandon k { running with wait := .pushLow 9, memStall := some .pushLow }).mem = [] ∧
    (abandon k { prog 0x0200 [0x70, 0x00, 0x03] running with memStall := some .pushHigh }).mem.read 0x00FF = 0x00 :=
  match k with
  | 0 => ⟨rfl, rfl, rfl⟩
  | 1 => ⟨rfl, rfl, rfl⟩
  | _ + 2 => ⟨rfl, rfl, rfl⟩

/-- 20_memory.md R31: a store's canonical form after writes in any order and a write of the unwritten byte. -/
theorem test_memory_canonical : (((byteAt 5 1).write 3 2).write 5 0).write 9 4 = [(3, 2), (9, 4)] := by decide

/-- R27: nothing is read while Running, the registers and status when Halted. -/
theorem test_observe : running.observe = none ∧ (State.reset.observe).map (fun o => (o.sp, o.stopCause.code)) = some (0xFF, 0) := by
  decide

/-! Witnesses: for every statement with hypotheses, operands and a state that meet them, each clause at a boundary of its range. -/

/-- AboutTo holds of a Running state with the bytes at pc. -/
theorem witness_AboutTo_nop : AboutTo (prog 0xFFFF [0x0F] running) [0x0F] :=
  ⟨rfl, rfl, rfl, rfl, by decide, by decide, trivial⟩
theorem witness_AboutTo_jmp : AboutTo (prog 0xFFFE [0x50, 0x78, 0x56] running) [0x50, 0x78, 0x56] :=
  ⟨rfl, rfl, rfl, rfl, by decide, by decide, by decide, by decide, trivial⟩
theorem witness_AboutTo_jz (b : Bool) : AboutTo (prog 0x0010 [0x60, 0x40, 0x00] { running with z := b }) [0x60, 0x40, 0x00] :=
  ⟨rfl, rfl, rfl, rfl, Nat.le_refl _, rfl, rfl, rfl, trivial⟩
theorem witness_AboutTo_call : AboutTo (prog 0xFFFD [0x7F, 0x00, 0x20] running) [0x7F, 0x00, 0x20] :=
  ⟨rfl, rfl, rfl, rfl, by decide, by decide, by decide, by decide, trivial⟩
theorem witness_AboutTo_ret : AboutTo (prog 0x0000 [0x80] running) [0x80] := ⟨rfl, rfl, rfl, rfl, by decide, by decide, trivial⟩

theorem witness_EncodeOfDecodeIsTheBytes : decode [0x5F, 0xFF, 0xFF, 0xAA] = .ok (.jmp 0xF 0xFFFF, [0xAA]) := rfl

theorem witness_StepRunsTheDecodedInstruction :
    AboutTo (prog 0xFFFE [0x50, 0x78, 0x56] running) [0x50, 0x78, 0x56] ∧ decode [0x50, 0x78, 0x56] = .ok (.jmp 0 0x5678, []) :=
  ⟨witness_AboutTo_jmp, rfl⟩

/-- A memory of 16 bytes that breaks its contract: pc at its end, a LOAD in its last byte, a JMP in its last two. -/
theorem witness_FetchOutOfBoundsAborts :
    (let s := { prog 0x0010 [] running with memSize := 16 }
     s.runState = .running ∧ s.wait = .none ∧ s.host = [] ∧ s.memStall = none ∧ s.memSize ≤ s.pc.toNat) ∧
    (let s := { prog 0x000F [0x10] running with memSize := 16 }
     s.runState = .running ∧ s.wait = .none ∧ s.host = [] ∧ s.memStall = none ∧ s.pc.toNat < s.memSize ∧
       s.mem.read s.pc.toNat = 0x10 ∧ 1 ≤ extraCount 0x10 ∧ s.memSize ≤ (s.pc + 1).toNat) ∧
    (let s := { prog 0x000E [0x50, 0x34] running with memSize := 16 }
     s.runState = .running ∧ s.wait = .none ∧ s.host = [] ∧ s.memStall = none ∧ s.pc.toNat < s.memSize ∧
       s.mem.read s.pc.toNat = 0x50 ∧ extraCount 0x50 = 2 ∧ (s.pc + 1).toNat < s.memSize ∧
       s.mem.read (s.pc + 1).toNat = 0x34 ∧ s.memSize ≤ (s.pc + 2).toNat) := by decide

/-- The memory silent on the word; on the first extra byte of a LOAD in the last two bytes; on the second of a JMP across the wrap. -/
theorem witness_UnansweredFetchesMakeTheEngineWait :
    (let s := { running with memStall := some .word }
     s.runState = .running ∧ s.wait = .none ∧ s.host = [] ∧ s.memAnswers .word = false) ∧
    (let s := { prog 0xFFFF [0x10] running with memStall := some .extraFirst }
     s.runState = .running ∧ s.wait = .none ∧ s.host = [] ∧ s.memStall = some .extraFirst ∧ s.pc.toNat < s.memSize ∧
       s.mem.read s.pc.toNat = 0x10 ∧ 1 ≤ extraCount 0x10) ∧
    (let s := { prog 0xFFFF [0x50, 0x34] running with memStall := some .extraSecond }
     s.runState = .running ∧ s.wait = .none ∧ s.host = [] ∧ s.memStall = some .extraSecond ∧ s.pc.toNat < s.memSize ∧
       s.mem.read s.pc.toNat = 0x50 ∧ extraCount 0x50 = 2 ∧ (s.pc + 1).toNat < s.memSize ∧
       s.mem.read (s.pc + 1).toNat = 0x34) := by decide

/-- A wait for the word; a JMP of which two bytes are missing, and one across the wrap of which one is. -/
theorem witness_AFetchWaitEndsAsItsInstruction :
    (let s := { running with wait := .fetchWord }; s.runState = .running ∧ s.host = [] ∧ s.wait = .fetchWord) ∧
    (let s := { prog 0x0001 [0x34, 0x12] running with ir := 0x50, wait := .fetchExtra }
     s.runState = .running ∧ s.host = [] ∧ s.wait = .fetchExtra ∧ s.memStall = none ∧ 65536 ≤ s.memSize ∧
       BytesAt s.mem s.pc [0x34, 0x12] ∧ decode (s.ir :: s.extra ++ [0x34, 0x12]) = .ok (.jmp 0 0x1234, [])) ∧
    (let s := { prog 0x0000 [0x12] running with ir := 0x50, extra := [0x34], wait := .fetchExtra }
     s.runState = .running ∧ s.host = [] ∧ s.wait = .fetchExtra ∧ s.memStall = none ∧ 65536 ≤ s.memSize ∧
       BytesAt s.mem s.pc [0x12] ∧ decode (s.ir :: s.extra ++ [0x12]) = .ok (.jmp 0 0x1234, [])) :=
  ⟨⟨rfl, rfl, rfl⟩, ⟨rfl, rfl, rfl, rfl, by decide, ⟨by decide, by decide, trivial⟩, rfl⟩,
    ⟨rfl, rfl, rfl, rfl, by decide, ⟨by decide, trivial⟩, rfl⟩⟩

theorem witness_StorePortsReadBackWhatWasWritten :
    let s := { running with memSize := 256, diskSize := 256 }
    (0x00FF : Addr).toNat < s.memSize ∧ s.memSize ≤ (0x0100 : Addr).toNat ∧ (0x00FF : Addr).toNat < s.diskSize ∧
      s.diskSize ≤ (0x0100 : Addr).toNat := by decide

theorem witness_PushWritesThenDecrements : ({ running with sp := 0x00, memSize := 1 } : State).sp.toNat < 1 := by decide
theorem witness_PopIncrementsThenReads : (running.sp + 1).toNat < running.memSize := by decide
theorem witness_RegisterIndicesName : regOfIndex 3 = some .r3 ∧ regOfIndex 4 = none ∧ regOfIndex 0 = some .r0 ∧
    regOfIndex 1 = some .r1 ∧ regOfIndex 2 = some .r2 ∧ regOfIndex 0xFF = none := by decide
theorem witness_NopHasNoEffect : (0x0F : Byte).toNat ≤ 0x0F ∧ AboutTo (prog 0xFFFF [0x0F] running) [0x0F] :=
  ⟨by decide, witness_AboutTo_nop⟩
theorem witness_LoadWritesTheImmediate : regOfIndex (indexOfNibble 3) = some .r3 ∧ regOfIndex (indexOfNibble 0) = some .r0 := by decide
theorem witness_AddAndSubAreModulo256 : regOfIndex (indexOfNibble 3) = some .r3 ∧ regOfIndex 3 = some .r3 := by decide
theorem witness_StoreWritesOneLowByte : regOfIndex (indexOfNibble 3) = some .r3 ∧
    (addr8Of 0xFF).toNat < ({ running with memSize := 256 } : State).memSize ∧ running.memAnswers .store = true ∧
    ({ running with memStall := some .word } : State).memAnswers .store = true := by decide
theorem witness_JmpSetsPc : opcodeOf 0x50 = 0x5 ∧ AboutTo (prog 0xFFFE [0x50, 0x78, 0x56] running) [0x50, 0x78, 0x56] :=
  ⟨by decide, witness_AboutTo_jmp⟩
theorem witness_JzJumpsExactlyWhenZ (b : Bool) : opcodeOf 0x60 = 0x6 ∧ ({ running with z := b } : State).z = b ∧
    AboutTo (prog 0x0010 [0x60, 0x40, 0x00] { running with z := b }) [0x60, 0x40, 0x00] := ⟨by decide, rfl, witness_AboutTo_jz b⟩
theorem witness_CallPushesTheReturnAddress : 256 ≤ ({ running with memSize := 256 } : State).memSize ∧
    running.memAnswers .pushHigh = true ∧ running.memAnswers .pushLow = true ∧ opcodeOf 0x7F = 0x7 ∧
    AboutTo (prog 0xFFFD [0x7F, 0x00, 0x20] running) [0x7F, 0x00, 0x20] := ⟨by decide, rfl, rfl, by decide, witness_AboutTo_call⟩
theorem witness_RetPopsTheReturnAddress : 256 ≤ ({ running with memSize := 256 } : State).memSize ∧
    running.memAnswers .popLow = true ∧ running.memAnswers .popHigh = true ∧ opcodeOf 0x80 = 0x8 ∧
    AboutTo (prog 0x0000 [0x80] running) [0x80] := ⟨by decide, rfl, rfl, by decide, witness_AboutTo_ret⟩
theorem witness_RetUndoesCall : 256 ≤ ({ running with memSize := 256 } : State).memSize ∧ running.memStall = none := by decide

/-- A memory of 255 bytes lacks 0x00FF only: STORE there, each push and each pop of a stack that meets it. -/
theorem witness_MemoryOutOfBoundsAborts :
    (let s := { running with memSize := 255 }
     s.memStall = none ∧ regOfIndex (indexOfNibble 3) = some .r3 ∧ s.memSize ≤ (addr8Of 0xFF).toNat ∧ s.memSize ≤ s.sp.toNat) ∧
    (let s := { running with memSize := 255, sp := 0x00 }
     s.memStall = none ∧ s.sp.toNat < s.memSize ∧ s.memSize ≤ (s.sp - 1).toNat) ∧
    (let s := { running with memSize := 255, sp := 0xFE }; s.memStall = none ∧ s.memSize ≤ (s.sp + 1).toNat) ∧
    (let s := { running with memSize := 255, sp := 0xFD }
     s.memStall = none ∧ (s.sp + 1).toNat < s.memSize ∧ s.memSize ≤ (s.sp + 2).toNat) := by decide
theorem witness_InTakesOneToken : regOfIndex (indexOfNibble 1) = some .r1 ∧
    ({ running with input := [-1, 300] } : State).input = -1 :: [300] := by decide
theorem witness_OutEmitsTheRegister : regOfIndex (indexOfNibble 3) = some .r3 ∧ running.outputReady = true := by decide
theorem witness_DiskInstructionsMoveOneByte : regOfIndex (indexOfNibble 3) = some .r3 ∧ running.diskReady = true ∧
    (0x00FF : Addr).toNat < ({ running with diskSize := 256 } : State).diskSize := by decide
theorem witness_DiskOutOfBoundsAborts : regOfIndex (indexOfNibble 3) = some .r3 ∧ running.diskReady = true ∧
    ({ running with diskSize := 256 } : State).diskSize ≤ (0x0100 : Addr).toNat := by decide

/-- P4: written by one machine, read by a fresh one that has the store. -/
theorem witness_DiskWriteIsDurable :
    exec (.diskWrite 1 0x1234) { running with x1 := 0x2C } = .next { running with x1 := 0x2C, disk := byteAt 0x1234 0x2C } ∧
    regOfIndex (indexOfNibble 1) = some .r1 ∧ regOfIndex (indexOfNibble 0) = some .r0 ∧
    (0x1234 : Addr).toNat < running.diskSize ∧ running.diskReady = true ∧
    ({ State.reset with disk := byteAt 0x1234 0x2C } : State).disk = byteAt 0x1234 0x2C ∧
    State.reset.diskSize = running.diskSize ∧ State.reset.diskReady = true :=
  ⟨rfl, by decide, by decide, by decide, rfl, rfl, rfl, rfl⟩

theorem witness_UnansweredPortsMakeTheEngineWait : regOfIndex (indexOfNibble 2) = some .r2 ∧ running.input = [] ∧
    ({ running with outputReady := false } : State).outputReady = false ∧
    ({ running with diskReady := false } : State).diskReady = false := by decide

theorem witness_UnansweredMemoryMakesTheInstructionWait :
    (let s := { running with memStall := some .store }
     regOfIndex (indexOfNibble 3) = some .r3 ∧ s.memAnswers .store = false) ∧
    ({ running with memStall := some .pushHigh } : State).memAnswers .pushHigh = false ∧
    (let s := { running with memStall := some .pushLow, memSize := 1, sp := 0x00 }
     s.memStall = some .pushLow ∧ s.sp.toNat < s.memSize) ∧
    ({ running with memStall := some .popLow } : State).memAnswers .popLow = false ∧
    (let s := { running with memStall := some .popHigh, memSize := 1 }
     s.memStall = some .popHigh ∧ (s.sp + 1).toNat < s.memSize) := by decide

/-- One state for each way to wait. -/
theorem witness_AWaitChangesNothing : running.runState = .running ∧ running.host = [] ∧
    Unanswered { running with wait := .fetchWord, memStall := some .word } ∧
    Unanswered { running with wait := .fetchExtra, ir := 0x10, memStall := some .extraFirst } ∧
    Unanswered { running with wait := .fetchExtra, ir := 0x50, extra := [0x34], memStall := some .extraSecond } ∧
    Unanswered { running with wait := .store 9 7, memStall := some .store } ∧
    Unanswered { running with wait := .pushHigh 9, memStall := some .pushHigh } ∧
    Unanswered { running with wait := .pushLow 9, memStall := some .pushLow } ∧
    Unanswered { running with wait := .popLow, memStall := some .popLow } ∧
    Unanswered { running with wait := .popHigh 9, memStall := some .popHigh } ∧
    Unanswered { running with wait := .inRead .r0 } ∧
    Unanswered { running with wait := .outWrite 7, outputReady := false } ∧
    Unanswered { running with wait := .diskRead .r0 9, diskReady := false } ∧
    Unanswered { running with wait := .diskWrite 9 7, diskReady := false } :=
  ⟨rfl, rfl, rfl, ⟨by decide, rfl⟩, ⟨by decide, rfl⟩, rfl, rfl, rfl, rfl, rfl, rfl, rfl, rfl, rfl⟩

theorem witness_AWaitEndsAsItsInstruction : running.runState = .running ∧ running.host = [] ∧
    regOfIndex (indexOfNibble 3) = some .r3 ∧
    ({ running with wait := .inRead .r3 } : State).wait = .inRead .r3 ∧
    ({ running with x3 := 7, wait := .outWrite 7 } : State).wait = .outWrite (State.getReg { running with x3 := 7 } .r3) ∧
    ({ running with wait := .diskRead .r3 9 } : State).wait = .diskRead .r3 9 ∧
    ({ running with x3 := 7, wait := .diskWrite 9 7 } : State).wait = .diskWrite 9 (State.getReg { running with x3 := 7 } .r3) ∧
    ({ running with x3 := 7, wait := .store 0x00FF 7 } : State).wait =
      .store (addr8Of 0xFF) (State.getReg { running with x3 := 7 } .r3) ∧
    ({ running with wait := .pushHigh 9 } : State).wait = .pushHigh 9 ∧
    (let s := { running with wait := .pushLow 9, sp := 0x00, memSize := 1 }
     s.wait = .pushLow 9 ∧ s.memAnswers .pushLow = true ∧ s.sp.toNat < s.memSize) ∧
    ({ running with wait := .popLow } : State).wait = .popLow ∧
    (let s := { running with wait := .popHigh 9, memSize := 1 }
     s.wait = .popHigh 9 ∧ s.memAnswers .popHigh = true ∧ (s.sp + 1).toNat < s.memSize) := by
  decide

theorem witness_UnrecognizedOpcodesHaltAndReport : 0xD0 ≤ (0xD0 : Byte).toNat ∧ (0xEF : Byte).toNat ≤ 0xEF ∧
    AboutTo (prog 0x0000 [0xD0] running) [0xD0] ∧ AboutTo (prog 0x0000 [0xEF] running) [0xEF] :=
  ⟨by decide, by decide, ⟨rfl, rfl, rfl, rfl, by decide, by decide, trivial⟩, ⟨rfl, rfl, rfl, rfl, by decide, by decide, trivial⟩⟩

/-- V-D15: n first; V-I14 and V-I5. -/
theorem witness_IllegalRegisterStops : (Instr.add 5 9).firstIllegal = some 5 ∧ (Instr.add 0 4).firstIllegal = some 4 ∧
    (Instr.sub 3 0xFF).firstIllegal = some 0xFF ∧ (Instr.diskRead 7 0x0100).firstIllegal = some 7 ∧
    (Instr.inp 15).firstIllegal = some 15 ∧ (Instr.store 4 0).firstIllegal = some 4 := by decide

/-- An illegal encoding that ends cleanly and a legal one that does not. -/
theorem witness_CleanErrorsAreExactlyIllegalEncodings : running.runState = .running ∧
    exec (.unrecognizedD 7) running = .next (running.raiseUnrecognized 0xD7) ∧ (Instr.unrecognizedD 7).wellFormed = false ∧
    exec (.inp 4) running = .next (running.raiseIllegalRegister 4) ∧ (Instr.inp 4).wellFormed = false ∧
    exec (.halt 0) running = .next running.raiseHalt ∧ (Instr.halt 0).wellFormed = true :=
  ⟨rfl, rfl, by decide, rfl, by decide, rfl, by decide⟩

theorem witness_OnlyDiskAccessesAbort : 65536 ≤ ({ running with diskSize := 256 } : State).memSize ∧
    running.runState = .running ∧
    exec (.diskRead 0 0x0100) { running with diskSize := 256 } = .next ({ running with diskSize := 256 }.raiseOutOfBounds 0x0100) ∧
    (Instr.diskRead 0 0x0100).firstIllegal = none ∧ running.diskReady = true :=
  ⟨by decide, rfl, rfl, by decide, rfl⟩

theorem witness_AStopWritesNothingElse : running.runState = .running ∧ exec (.halt 0) running = .next running.raiseHalt ∧
    running.raiseHalt.runState ≠ .running ∧ 65536 ≤ running.memSize := ⟨rfl, rfl, by decide, by decide⟩

/-- The five ways: HALT, an unrecognized opcode, an illegal register, an access beyond D, and Reset. -/
theorem witness_TheFiveWaysOutOfRunning : WaitOk (prog 0x0000 [0xF0] running) ∧
    (after (prog 0x0000 [0xF0] running)).map (fun t => (t.runState, t.stopCause, t.fetched)) = some (.halted, .halt, .halt 0) ∧
    (after (prog 0x0000 [0xE5] running)).map (fun t => (t.runState, t.stopInfo, t.ir)) = some (.halted, 0xE5, 0xE5) ∧
    (after (prog 0x0000 [0x30, 0x04] running)).map (fun t => (t.runState, t.stopInfo, t.fetched)) = some (.halted, 4, .add 0 4) ∧
    (after (prog 0x0000 [0xC0, 0x00, 0x01] { running with diskSize := 256 })).map (fun t => (t.runState, t.stopAddr, t.fetched)) =
      some (.aborted, 0x0100, .diskWrite 0 0x0100) ∧
    (∃ t, step { running with host := [.reset] } = .next t ∧ t.runState = .halted) :=
  ⟨⟨by decide, trivial⟩, by decide, by decide, by decide, by decide, _, rfl, rfl⟩

theorem witness_ZeroFlagRule : exec (.load 0 0) running = .next (running.writeResult .r0 0) ∧
    destReg (.load 0 0) running = some .r0 ∧ (∀ x a, Instr.load 0 0 ≠ .jz x a) ∧
    exec (.inp 0) running = .next { running with wait := .inRead .r0 } ∧ destReg (.inp 0) running = none :=
  ⟨rfl, by decide, by simp, rfl, by decide⟩

theorem witness_RegisterReadsAndWrites : Reg.r0 ∉ sourceRegs (.load 0 0) ∧ destReg (.load 0 0) running = some .r0 ∧
    Reg.r2 ∉ sourceRegs (.add 0 1) ∧ destReg (.add 0 1) running ≠ some .r2 ∧
    exec (.load 0 0) running = .next (running.writeResult .r0 0) ∧ exec (.add 0 1) running = .next (running.writeResult .r0 0) :=
  ⟨by decide, by decide, by decide, by decide, rfl, rfl⟩

theorem witness_OnlyCallAndRetMoveSp : 256 ≤ ({ running with memSize := 256 } : State).memSize ∧ running.memStall = none ∧
    (∃ t, exec (.ret 0) { running with memSize := 256 } = .next t ∧ t.sp = 0x01) ∧
    (∀ x a, Instr.nop 0 ≠ .call x a) ∧ (∀ x, Instr.nop 0 ≠ .ret x) ∧ exec (.nop 0) running = .next running :=
  ⟨by decide, rfl, ⟨_, rfl, rfl⟩, by simp, by simp, rfl⟩
theorem witness_OnlyControlTransfersSetPc : 256 ≤ running.memSize ∧ running.memStall = none ∧
    (∃ t, exec (.call 0 7) running = .next t ∧ t.pc = 7) ∧
    (∀ x a, Instr.jz 0 7 ≠ .call x a) ∧ (∀ x, Instr.jz 0 7 ≠ .ret x) ∧ exec (.jz 0 7) running = .next running :=
  ⟨by decide, rfl, ⟨_, rfl, rfl⟩, by simp, by simp, rfl⟩
theorem witness_WritesStayInTheirWindows : exec (.store 0 0xFF) { running with x0 := 1 } =
      .next { running with x0 := 1, mem := byteAt 0xFF 1 } ∧
    (∀ n a, Instr.store 0 0xFF ≠ .diskWrite n a) ∧ (∀ n d, Instr.halt 0 ≠ .store n d) ∧ (∀ x a, Instr.halt 0 ≠ .call x a) ∧
    exec (.halt 0) running = .next running.raiseHalt := ⟨rfl, by simp, by simp, by simp, rfl⟩
theorem witness_ChannelsMoveOneValueAtATime : exec (.out 0) { running with x0 := 1 } = .next { running with x0 := 1, output := [1] } :=
  rfl
theorem witness_StatusOutputsAreNotRead : running.runState = .running ∧ exec (.nop 0) running = .next running ∧
    exec (.halt 0) running = .next running.raiseHalt ∧ running.raiseHalt.runState ≠ .running := ⟨rfl, rfl, rfl, by decide⟩

/-- V-D8. -/
theorem witness_AStoreIsSeenByTheNextFetch :
    let s := { running with x0 := 0xF0, pc := 0x0005 }
    regOfIndex (indexOfNibble 0) = some .r0 ∧ (addr8Of 0x05).toNat < s.memSize ∧ s.memAnswers .store = true ∧
    s.memAnswers .word = true ∧ exec (.store 0 0x05) s = .next { s with mem := byteAt 5 0xF0 } ∧ s.pc = addr8Of 0x05 :=
  ⟨by decide, by decide, rfl, rfl, rfl, by decide⟩

theorem witness_ResetReachesTheResetState : ({ State.reset with host := [.reset] } : State).host = .reset :: [] ∧
    State.reset.runState ≠ .running ∧ ({ State.reset with runState := .aborted } : State).runState ≠ .running :=
  ⟨rfl, by decide, by decide⟩

/-- A Reset while a CALL is in progress, and one while IN waits. -/
theorem witness_ResetWhileRunningAbandonsTheInstruction :
    ({ prog 0x0200 [0x70, 0x00, 0x03] running with host := [.reset] } : State).host = .reset :: [] ∧
    ({ prog 0x0200 [0x70, 0x00, 0x03] running with host := [.reset] } : State).runState = .running ∧
    (∃ u, InProgress { prog 0x0200 [0x70, 0x00, 0x03] running with host := [.reset] } u (.call 0 0x0300) ∧ u.pc = 0x0203) ∧
    ({ running with wait := .inRead .r1, host := [.reset] } : State).runState = .running :=
  ⟨rfl, rfl, ⟨_, ⟨rfl, rfl⟩, rfl⟩, rfl⟩

theorem witness_StartRunsAtTheEntry : ({ State.reset with host := [.start 0xFFFF], diskSize := 1 } : State).host = .start 0xFFFF :: [] ∧
    State.reset.runState = .halted ∧ 0 < ({ State.reset with diskSize := 1 } : State).diskSize := ⟨rfl, rfl, by decide⟩
theorem witness_StartIsIgnoredUnlessHalted : ({ running with host := [.start 5] } : State).host = .start 5 :: [] ∧
    running.runState ≠ .halted ∧ ({ running with runState := .aborted } : State).runState ≠ .halted := ⟨rfl, by decide, by decide⟩
theorem witness_TheHostIsRefusedByName :
    ({ State.reset with host := [.start 5], diskSize := 0 } : State).host = .start 5 :: [] ∧ State.reset.runState = .halted ∧
    ({ State.reset with diskSize := 0 } : State).diskSize = 0 ∧
    ({ running with host := [.load 5 6] } : State).host = .load 5 6 :: [] ∧ running.runState = .running := ⟨rfl, rfl, rfl, rfl, rfl⟩
theorem witness_HostMovesKeepTheCore :
    ({ State.reset with host := [.load 0xFFFF 6] } : State).host = .load 0xFFFF 6 :: [] ∧ State.reset.runState ≠ .running ∧
    (0xFFFF : Addr).toNat < State.reset.memSize ∧
    ({ State.reset with host := [.supply (-1)] } : State).host = .supply (-1) :: [] ∧
    ({ State.reset with host := [.setReady .disk false] } : State).host = .setReady .disk false :: [] ∧
    ({ State.reset with host := [.stallMemory (some .word)] } : State).host = .stallMemory (some .word) :: [] :=
  ⟨rfl, by decide, by decide, rfl, rfl, rfl⟩
theorem witness_AStoppedEngineRunsNothing : State.reset.host = [] ∧ State.reset.runState = .halted ∧
    ({ State.reset with runState := .aborted } : State).runState = .aborted := ⟨rfl, rfl, rfl⟩
theorem witness_ARunningEngineNeverFaults :
    step { State.reset with runState := .aborted, stopAddr := 0x0100 } = .fault (.aborted 0x0100) ∧
    running.runState = .running ∧ (∀ a v ms, running.host ≠ .load a v :: ms) := ⟨rfl, rfl, by simp [running, State.reset]⟩

/-- A state that meets the three invariants, with a byte in each store and a wait, and the step it takes. -/
theorem witness_EveryStepKeepsTheStoresCanonical :
    let s := { running with mem := byteAt 65535 1, disk := byteAt 255 2, diskSize := 256 }
    StoresOk s ∧ step { s with memStall := some .word } = .next { s with memStall := some .word, wait := .fetchWord } :=
  ⟨⟨by decide, by decide, by simp [byteAt, running, State.reset, Config.memSizeMin], by simp [byteAt]⟩, rfl⟩
theorem witness_EveryStepKeepsTheStatusConsistent : StatusOk (prog 0x0000 [0xF0] running) ∧
    (after (prog 0x0000 [0xF0] running)).isSome = true := ⟨⟨rfl, rfl, rfl⟩, by decide⟩
theorem witness_EveryStepKeepsTheWaitConsistent :
    (let s := { running with x3 := 7, ir := 0xA3, wait := .outWrite 7 }
     WaitOk s ∧ step s = .next { s with wait := .none, output := [7] }) ∧
    (let s := { running with ir := 0x70, extra := [0x00, 0x03], pc := 0x0203, sp := 0xFE, mem := byteAt 0xFF 0x02, wait := .pushLow 0x0300 }
     WaitOk s ∧ ∃ t, step s = .next t ∧ t.pc = 0x0300) :=
  ⟨⟨⟨by decide, rfl, 3, .r3, rfl, by decide, rfl⟩, rfl⟩, ⟨by decide, rfl, ⟨0, rfl⟩, by decide⟩, _, rfl, rfl⟩

end Sys2Proof.Tests
end

section
/-! PROOF. The status invariant (10_state.md R21): what a stop shows fits the run state, and every shared operation, hence every
instruction, every resumed wait and every host move, keeps it. -/

namespace Sys2Proof.Machine

open Sys2Proof.Safety
open Sys2Proof.Laws.EncodedLength (opcodeOf_wordOf)

/-! The states that show a fitting status whatever stood there before: a stop, Reset and Start. -/

theorem statusOk_raiseHalt (s : State) : StatusOk s.raiseHalt := ⟨rfl, rfl⟩

theorem statusOk_raiseUnrecognized (s : State) {op x : Nibble} (h : op = 0xD ∨ op = 0xE) :
    StatusOk (s.raiseUnrecognized (wordOf op x)) :=
  ⟨rfl, by simpa [State.raiseUnrecognized, opcodeOf_wordOf] using h⟩

theorem statusOk_raiseIllegalRegister (s : State) {k : Byte} (h : regOfIndex k = none) :
    StatusOk (s.raiseIllegalRegister k) :=
  ⟨rfl, (regOfIndex_eq_none_iff k).1 h⟩

theorem statusOk_raiseOutOfBounds (s : State) (a : Addr) : StatusOk (s.raiseOutOfBounds a) := ⟨rfl, rfl⟩

theorem statusOk_hostReset (s : State) : StatusOk (hostReset s) := by
  unfold hostReset
  split <;> exact ⟨rfl, rfl⟩

theorem statusOk_startAt (s : State) (e : Addr) : StatusOk (s.startAt e) := ⟨rfl, rfl, rfl⟩

/-! The shared operations. -/

theorem statusOk_withReg {s : State} {k : Byte} {go : Reg → State} (hgo : ∀ r, StatusOk (go r)) :
    StatusOk (withReg k s go) := by
  rcases withReg_cases k s go with ⟨r, _, e⟩ | ⟨hk, e⟩ <;> rw [e]
  · exact hgo r
  · exact statusOk_raiseIllegalRegister s hk

section
variable {s : State} (hs : StatusOk s)
include hs

theorem statusOk_writeResult (r : Reg) (v : Byte) : StatusOk (s.writeResult r v) := by
  simpa [StatusOk] using hs

theorem statusOk_storeByte (a : Addr) (v : Byte) : StatusOk (storeByte a v s) := by
  rcases storeByte_cases a v s with ⟨_, e⟩ | ⟨_, _, e⟩ | ⟨_, _, e⟩ <;> rw [e]
  · exact hs
  · exact hs
  · exact statusOk_raiseOutOfBounds s a

theorem statusOk_callPushLow (t : Addr) : StatusOk (callPushLow t s) := by
  rcases callPushLow_cases t s with ⟨_, e⟩ | ⟨_, _, e⟩ | ⟨_, _, e⟩ <;> rw [e]
  · exact hs
  · exact hs
  · exact statusOk_raiseOutOfBounds s _

theorem statusOk_callPushHigh (t : Addr) : StatusOk (callPushHigh t s) := by
  rcases callPushHigh_cases t s with ⟨_, e⟩ | ⟨_, _, e⟩ | ⟨_, _, e⟩ <;> rw [e]
  · exact hs
  · refine statusOk_callPushLow ?_ t
    exact hs
  · exact statusOk_raiseOutOfBounds s _

theorem statusOk_retPopHigh (lo : Byte) : StatusOk (retPopHigh lo s) := by
  rcases retPopHigh_cases lo s with ⟨_, e⟩ | ⟨_, _, e⟩ | ⟨_, _, e⟩ <;> rw [e]
  · exact hs
  · exact hs
  · exact statusOk_raiseOutOfBounds s _

theorem statusOk_retPopLow : StatusOk (retPopLow s) := by
  rcases retPopLow_cases s with ⟨_, e⟩ | ⟨_, _, e⟩ | ⟨_, _, e⟩ <;> rw [e]
  · exact hs
  · refine statusOk_retPopHigh ?_ _
    exact hs
  · exact statusOk_raiseOutOfBounds s _

theorem statusOk_inRead (r : Reg) : StatusOk (inRead r s) := by
  rcases inRead_cases r s with ⟨_, e⟩ | ⟨k, ks, _, e⟩ <;> rw [e]
  · exact hs
  · refine statusOk_writeResult ?_ r _
    exact hs

theorem statusOk_outWrite (v : Byte) : StatusOk (outWrite v s) := by
  rcases outWrite_cases v s with ⟨_, e⟩ | ⟨_, e⟩ <;> rw [e] <;> exact hs

theorem statusOk_diskReadInto (r : Reg) (a : Addr) : StatusOk (diskReadInto r a s) := by
  rcases diskReadInto_cases r a s with ⟨_, e⟩ | ⟨_, _, e⟩ | ⟨_, _, e⟩ <;> rw [e]
  · exact hs
  · exact statusOk_writeResult hs r _
  · exact statusOk_raiseOutOfBounds s a

theorem statusOk_diskWriteFrom (a : Addr) (v : Byte) : StatusOk (diskWriteFrom a v s) := by
  rcases diskWriteFrom_cases a v s with ⟨_, e⟩ | ⟨_, _, e⟩ | ⟨_, _, e⟩ <;> rw [e]
  · exact hs
  · exact hs
  · exact statusOk_raiseOutOfBounds s a

/-! The instructions, the waits and the fetch. -/

theorem statusOk_exec {i : Instr} {t : State} (h : exec i s = .next t) : StatusOk t := by
  cases i <;> cases h
  case nop => exact hs
  case load n v => exact statusOk_withReg fun r => statusOk_writeResult hs r v
  case store n d => exact statusOk_withReg fun r => statusOk_storeByte hs _ _
  case add n m => exact statusOk_withReg fun r => statusOk_withReg fun q => statusOk_writeResult hs r _
  case sub n m => exact statusOk_withReg fun r => statusOk_withReg fun q => statusOk_writeResult hs r _
  case jmp => exact hs
  case jz x a => split <;> exact hs
  case call x a => exact statusOk_callPushHigh hs a
  case ret => exact statusOk_retPopLow hs
  case inp n => exact statusOk_withReg fun r => statusOk_inRead hs r
  case out n => exact statusOk_withReg fun r => statusOk_outWrite hs _
  case diskRead n a => exact statusOk_withReg fun r => statusOk_diskReadInto hs r a
  case diskWrite n a => exact statusOk_withReg fun r => statusOk_diskWriteFrom hs a _
  case unrecognizedD x => exact statusOk_raiseUnrecognized s (.inl rfl)
  case unrecognizedE x => exact statusOk_raiseUnrecognized s (.inr rfl)
  case halt => exact statusOk_raiseHalt s

theorem statusOk_resume (hf : fetching s = none) : StatusOk (resume s) := by
  have idle : StatusOk { s with wait := .none } := hs
  rcases resume_cases hf with ⟨a, v, _, e⟩ | ⟨t, _, e⟩ | ⟨t, _, e⟩ | ⟨_, e⟩ | ⟨lo, _, e⟩ | ⟨r, _, e⟩ | ⟨v, _, e⟩ |
    ⟨r, a, _, e⟩ | ⟨a, v, _, e⟩ <;> rw [e]
  · exact statusOk_storeByte idle a v
  · exact statusOk_callPushHigh idle t
  · exact statusOk_callPushLow idle t
  · exact statusOk_retPopLow idle
  · exact statusOk_retPopHigh idle lo
  · exact statusOk_inRead idle r
  · exact statusOk_outWrite idle v
  · exact statusOk_diskReadInto idle r a
  · exact statusOk_diskWriteFrom idle a v

theorem statusOk_fetching_ok {u : State} (h : fetching s = some (.ok u)) : StatusOk u := by
  rw [(fetching_ok h).1]
  exact hs

theorem statusOk_fetching_error {t : State} (h : fetching s = some (.error t)) : StatusOk t := by
  rcases fetching_error h with rfl | ⟨p, w, bs, _, ⟨a, rfl, _⟩ | ⟨_, rfl⟩⟩
  · exact hs
  · exact statusOk_raiseOutOfBounds _ a
  · exact hs

theorem statusOk_engineStep {t : State} (h : engineStep s = .next t) : StatusOk t := by
  rcases engineStep_cases h with ⟨_, rfl⟩ | ⟨_, u, hf, hu⟩ | ⟨_, hf⟩ | ⟨_, hf, rfl⟩
  · exact hs
  · exact statusOk_exec (statusOk_fetching_ok hs hf) hu
  · exact statusOk_fetching_error hs hf
  · exact statusOk_resume hs hf

theorem statusOk_step {t : State} (h : step s = .next t) : StatusOk t := by
  rcases step_cases h with ⟨ms, _, he⟩ | ⟨ms, _, rfl⟩ | ⟨e, ms, _, _, _, rfl⟩ | ⟨e, ms, _, _, rfl⟩ |
    ⟨a, v, ms, _, _, _, rfl⟩ | ⟨a, v, ms, _, _, _, rfl⟩ | ⟨k, ms, _, rfl⟩ | ⟨p, b, ms, _, rfl⟩ | ⟨m, ms, _, rfl⟩
  · exact statusOk_engineStep (s := { s with host := ms }) hs he
  · exact statusOk_hostReset _
  · exact statusOk_startAt _ e
  · exact hs
  · exact hs
  · exact hs
  · exact hs
  · cases p <;> exact hs
  · exact hs

end

end Sys2Proof.Machine

namespace Sys2Proof.Proofs

open Sys2Proof.Machine Sys2Proof.Safety

/-- Settles O54: every way a step can go keeps the status outputs or overwrites them with fitting ones. -/
theorem everyStepKeepsTheStatusConsistent : Obligations.EveryStepKeepsTheStatusConsistent :=
  fun _ _ hs h => statusOk_step hs h

end Sys2Proof.Proofs
end

section
/-! PROOF. The wait invariant (10_state.md R22): a shared operation ends with nothing pending or waits with its own transaction, so that
running an instruction and taking its wait up again come to the same lemma. -/

namespace Sys2Proof.Machine

open Sys2Proof.Safety

theorem waitOk_of_none {s : State} (hl : s.extra.length ≤ 2) (hw : s.wait = .none) : WaitOk s := by
  refine ⟨hl, ?_⟩
  rw [hw]
  trivial

theorem with_wait_restored {s : State} {w : PortWait} (h : s.wait = w) :
    ({ ({ s with wait := .none } : State) with wait := w } : State) = s := by
  rw [← h]

theorem running_of_waiting {s : State} (hs : WaitOk s) (hne : s.wait ≠ .none) : s.runState = .running := by
  obtain ⟨_, h⟩ := hs
  cases hw : s.wait <;> rw [hw] at h
  case none => exact absurd hw hne
  case fetchWord => exact h
  all_goals exact h.1

theorem wait_eq_none_of_not_running {s : State} (hs : WaitOk s) (hr : s.runState ≠ .running) : s.wait = .none :=
  Classical.byContradiction fun hne => hr (running_of_waiting hs hne)

/-! The shared operations, from a state with nothing pending. -/

theorem waitOk_withReg {k : Byte} {s : State} {go : Reg → State} (hl : s.extra.length ≤ 2) (hw : s.wait = .none)
    (hgo : ∀ r, regOfIndex k = some r → WaitOk (go r)) : WaitOk (withReg k s go) := by
  rcases withReg_cases k s go with ⟨r, hr, e⟩ | ⟨_, e⟩ <;> rw [e]
  · exact hgo r hr
  · exact waitOk_of_none hl hw

section
variable {s : State} (hl : s.extra.length ≤ 2) (hw : s.wait = .none)
include hl hw

theorem waitOk_writeResult (r : Reg) (v : Byte) : WaitOk (s.writeResult r v) :=
  waitOk_of_none (by simpa using hl) (by simpa using hw)

theorem waitOk_storeByte {a : Addr} {v : Byte} (h : WaitOk { s with wait := .store a v }) : WaitOk (storeByte a v s) := by
  rcases storeByte_cases a v s with ⟨_, e⟩ | ⟨_, _, e⟩ | ⟨_, _, e⟩ <;> rw [e]
  · exact h
  · exact waitOk_of_none hl hw
  · exact waitOk_of_none hl hw

theorem waitOk_callPushLow {t : Addr} (h : WaitOk { s with wait := .pushLow t }) : WaitOk (callPushLow t s) := by
  rcases callPushLow_cases t s with ⟨_, e⟩ | ⟨_, _, e⟩ | ⟨_, _, e⟩ <;> rw [e]
  · exact h
  · exact waitOk_of_none hl hw
  · exact waitOk_of_none hl hw

/-- The first push leaves the byte that the wait of the second one speaks of. -/
theorem waitOk_callPushHigh {t : Addr} (h : WaitOk { s with wait := .pushHigh t }) : WaitOk (callPushHigh t s) := by
  rcases callPushHigh_cases t s with ⟨_, e⟩ | ⟨_, _, e⟩ | ⟨_, _, e⟩ <;> rw [e]
  · exact h
  · obtain ⟨_, hr, hi⟩ := h
    refine waitOk_callPushLow ?_ ?_ ⟨?_, hr, hi, ?_⟩
    · exact hl
    · exact hw
    · exact hl
    · simp
  · exact waitOk_of_none hl hw

theorem waitOk_retPopHigh {lo : Byte} (h : WaitOk { s with wait := .popHigh lo }) : WaitOk (retPopHigh lo s) := by
  rcases retPopHigh_cases lo s with ⟨_, e⟩ | ⟨_, _, e⟩ | ⟨_, _, e⟩ <;> rw [e]
  · exact h
  · exact waitOk_of_none hl hw
  · exact waitOk_of_none hl hw

theorem waitOk_retPopLow (h : WaitOk { s with wait := .popLow }) : WaitOk (retPopLow s) := by
  rcases retPopLow_cases s with ⟨_, e⟩ | ⟨_, _, e⟩ | ⟨_, _, e⟩ <;> rw [e]
  · exact h
  · obtain ⟨_, hr, hi⟩ := h
    refine waitOk_retPopHigh ?_ ?_ ⟨?_, hr, hi, rfl⟩
    · exact hl
    · exact hw
    · exact hl
  · exact waitOk_of_none hl hw

theorem waitOk_inRead {r : Reg} (h : WaitOk { s with wait := .inRead r }) : WaitOk (inRead r s) := by
  rcases inRead_cases r s with ⟨_, e⟩ | ⟨k, ks, _, e⟩ <;> rw [e]
  · exact h
  · refine waitOk_writeResult ?_ ?_ r _
    · exact hl
    · exact hw

theorem waitOk_outWrite {v : Byte} (h : WaitOk { s with wait := .outWrite v }) : WaitOk (outWrite v s) := by
  rcases outWrite_cases v s with ⟨_, e⟩ | ⟨_, e⟩ <;> rw [e]
  · exact waitOk_of_none hl hw
  · exact h

theorem waitOk_diskReadInto {r : Reg} {a : Addr} (h : WaitOk { s with wait := .diskRead r a }) :
    WaitOk (diskReadInto r a s) := by
  rcases diskReadInto_cases r a s with ⟨_, e⟩ | ⟨_, _, e⟩ | ⟨_, _, e⟩ <;> rw [e]
  · exact h
  · exact waitOk_writeResult hl hw r _
  · exact waitOk_of_none hl hw

theorem waitOk_diskWriteFrom {a : Addr} {v : Byte} (h : WaitOk { s with wait := .diskWrite a v }) :
    WaitOk (diskWriteFrom a v s) := by
  rcases diskWriteFrom_cases a v s with ⟨_, e⟩ | ⟨_, _, e⟩ | ⟨_, _, e⟩ <;> rw [e]
  · exact h
  · exact waitOk_of_none hl hw
  · exact waitOk_of_none hl hw

/-- An instruction just fetched by a Running engine ends, or waits with its own transaction. -/
theorem waitOk_exec {i : Instr} {t : State} (hr : s.runState = .running) (hi : s.fetched = i) (h : exec i s = .next t) :
    WaitOk t := by
  cases i <;> cases h
  case load n v => exact waitOk_withReg hl hw fun r _ => waitOk_writeResult hl hw r v
  case store n d =>
    exact waitOk_withReg hl hw fun r hn => waitOk_storeByte hl hw ⟨hl, hr, n, d, r, hi, hn, rfl, by simp⟩
  case add n m =>
    exact waitOk_withReg hl hw fun r _ => waitOk_withReg hl hw fun q _ => waitOk_writeResult hl hw r _
  case sub n m =>
    exact waitOk_withReg hl hw fun r _ => waitOk_withReg hl hw fun q _ => waitOk_writeResult hl hw r _
  case jz x a => split <;> exact waitOk_of_none hl hw
  case call x a => exact waitOk_callPushHigh hl hw ⟨hl, hr, x, hi⟩
  case ret x => exact waitOk_retPopLow hl hw ⟨hl, hr, x, hi⟩
  case inp n => exact waitOk_withReg hl hw fun r hn => waitOk_inRead hl hw ⟨hl, hr, n, hi, hn⟩
  case out n => exact waitOk_withReg hl hw fun r hn => waitOk_outWrite hl hw ⟨hl, hr, n, r, hi, hn, by simp⟩
  case diskRead n a => exact waitOk_withReg hl hw fun r hn => waitOk_diskReadInto hl hw ⟨hl, hr, n, hi, hn⟩
  case diskWrite n a =>
    exact waitOk_withReg hl hw fun r hn => waitOk_diskWriteFrom hl hw ⟨hl, hr, n, r, hi, hn, by simp⟩
  -- NOP, JMP, HALT and the unrecognized opcodes make no transaction
  all_goals exact waitOk_of_none hl hw

end

/-! The waits, the fetch and the step. -/

section
variable {s : State} (hs : WaitOk s)
include hs

theorem waitOk_resume (hf : fetching s = none) : WaitOk (resume s) := by
  have hl : ({ s with wait := .none } : State).extra.length ≤ 2 := hs.1
  have again : ∀ w, s.wait = w → WaitOk { ({ s with wait := .none } : State) with wait := w } := fun w hw => by
    rwa [with_wait_restored hw]
  rcases resume_cases hf with ⟨a, v, hw, e⟩ | ⟨t, hw, e⟩ | ⟨t, hw, e⟩ | ⟨hw, e⟩ | ⟨lo, hw, e⟩ | ⟨r, hw, e⟩ | ⟨v, hw, e⟩ |
    ⟨r, a, hw, e⟩ | ⟨a, v, hw, e⟩ <;> rw [e]
  · exact waitOk_storeByte hl rfl (again _ hw)
  · exact waitOk_callPushHigh hl rfl (again _ hw)
  · exact waitOk_callPushLow hl rfl (again _ hw)
  · exact waitOk_retPopLow hl rfl (again _ hw)
  · exact waitOk_retPopHigh hl rfl (again _ hw)
  · exact waitOk_inRead hl rfl (again _ hw)
  · exact waitOk_outWrite hl rfl (again _ hw)
  · exact waitOk_diskReadInto hl rfl (again _ hw)
  · exact waitOk_diskWriteFrom hl rfl (again _ hw)

theorem waitOk_fetching_error {t : State} (hr : s.runState = .running) (h : fetching s = some (.error t)) : WaitOk t := by
  obtain ⟨hl, _⟩ := hs
  rcases fetching_error h with rfl | ⟨p, w, bs, hbs, ⟨a, rfl, _⟩ | ⟨hlt, rfl⟩⟩
  · exact ⟨hl, hr⟩
  · exact waitOk_of_none (hbs hl) rfl
  · exact ⟨hbs hl, hr, hlt⟩

theorem waitOk_fetched {u t : State} (hr : s.runState = .running) (hf : fetching s = some (.ok u))
    (h : exec u.fetched u = .next t) : WaitOk t := by
  obtain ⟨hu, hlu⟩ := fetching_ok hf
  have hw : u.wait = .none := by rw [hu]
  have hru : u.runState = .running := by rw [hu]; exact hr
  exact waitOk_exec (hlu hs.1) hw hru rfl h

theorem waitOk_engineStep {t : State} (h : engineStep s = .next t) : WaitOk t := by
  rcases engineStep_cases h with ⟨_, rfl⟩ | ⟨hr, u, hf, hu⟩ | ⟨hr, hf⟩ | ⟨_, hf, rfl⟩
  · exact hs
  · exact waitOk_fetched hs hr hf hu
  · exact waitOk_fetching_error hs hr hf
  · exact waitOk_resume hs hf

theorem waitOk_step {t : State} (h : step s = .next t) : WaitOk t := by
  have idle : s.runState ≠ .running → s.wait = .none := wait_eq_none_of_not_running hs
  rcases step_cases h with ⟨ms, _, he⟩ | ⟨ms, _, rfl⟩ | ⟨e, ms, _, hr, _, rfl⟩ | ⟨e, ms, _, _, rfl⟩ |
    ⟨a, v, ms, _, hr, _, rfl⟩ | ⟨a, v, ms, _, _, _, rfl⟩ | ⟨k, ms, _, rfl⟩ | ⟨p, b, ms, _, rfl⟩ | ⟨m, ms, _, rfl⟩
  · exact waitOk_engineStep (s := { s with host := ms }) hs he
  · unfold hostReset
    split <;> exact waitOk_of_none (Nat.zero_le 2) rfl
  · exact waitOk_of_none hs.1 (idle (by simp [hr]))
  · exact hs
  · exact waitOk_of_none hs.1 (idle hr)
  · exact hs
  · exact hs
  · cases p <;> exact hs
  · exact hs

end

end Sys2Proof.Machine

namespace Sys2Proof.Proofs

open Sys2Proof.Machine Sys2Proof.Safety

/-- Settles O55: a step ends its transaction or waits with the one its instruction makes. -/
theorem everyStepKeepsTheWaitConsistent : Obligations.EveryStepKeepsTheWaitConsistent :=
  fun _ _ hs h => waitOk_step hs h

end Sys2Proof.Proofs
end

section
/-! PROOF. Noninterference: a change of state that no transaction reads passes through every operation, and so through every instruction.
The zero flag (R19), a register that is no source (R14) and the stop outputs (R21) are three such changes. -/

namespace Sys2Proof.Machine

open Sys2Proof.Safety

/-- `f` changes nothing that a transaction reads, passes through every update that a transaction makes, and through every stop. -/
structure Unread (f : State → State) : Prop where
  pc (s : State) : (f s).pc = s.pc
  sp (s : State) : (f s).sp = s.sp
  mem (s : State) : (f s).mem = s.mem
  memSize (s : State) : (f s).memSize = s.memSize
  disk (s : State) : (f s).disk = s.disk
  diskSize (s : State) : (f s).diskSize = s.diskSize
  input (s : State) : (f s).input = s.input
  output (s : State) : (f s).output = s.output
  memStall (s : State) : (f s).memStall = s.memStall
  diskReady (s : State) : (f s).diskReady = s.diskReady
  outputReady (s : State) : (f s).outputReady = s.outputReady
  with_pc {s u : State} (hu : u = f s) (v : Addr) : { u with pc := v } = f { s with pc := v }
  with_sp {s u : State} (hu : u = f s) (v : Byte) : { u with sp := v } = f { s with sp := v }
  with_mem {s u : State} (hu : u = f s) (v : Memory) : { u with mem := v } = f { s with mem := v }
  with_disk {s u : State} (hu : u = f s) (v : Memory) : { u with disk := v } = f { s with disk := v }
  with_input {s u : State} (hu : u = f s) (v : List Int) : { u with input := v } = f { s with input := v }
  with_output {s u : State} (hu : u = f s) (v : List Byte) : { u with output := v } = f { s with output := v }
  with_wait {s u : State} (hu : u = f s) (v : PortWait) : { u with wait := v } = f { s with wait := v }
  map_stop (s : State) {rs : RunState} (hrs : rs ≠ .running) (c : StopCause) (k : Byte) (a : Addr) :
    (f s).stop rs c k a = f (s.stop rs c k a)

namespace Unread

variable {f : State → State} (hf : Unread f)
include hf

theorem memAnswers (s : State) (m : MemAccess) : (f s).memAnswers m = s.memAnswers m := by
  simp only [State.memAnswers, hf.memStall]

theorem map_raiseOutOfBounds (s : State) (a : Addr) : (f s).raiseOutOfBounds a = f (s.raiseOutOfBounds a) :=
  hf.map_stop s (by decide) _ _ _

theorem map_raiseIllegalRegister (s : State) (k : Byte) : (f s).raiseIllegalRegister k = f (s.raiseIllegalRegister k) :=
  hf.map_stop s (by decide) _ _ _

/-! The ports and the stack. -/

theorem map_memWrite (a : Addr) (v : Byte) (s : State) : memWrite a v (f s) = (memWrite a v s).map f := by
  unfold memWrite
  rw [hf.with_mem rfl, hf.memSize, hf.mem]
  split <;> rfl

theorem map_diskWrite (a : Addr) (v : Byte) (s : State) : diskWrite a v (f s) = (diskWrite a v s).map f := by
  unfold diskWrite
  rw [hf.with_disk rfl, hf.diskSize, hf.disk]
  split <;> rfl

theorem diskRead_eq (a : Addr) (s : State) : diskRead a (f s) = diskRead a s := by
  unfold diskRead
  rw [hf.diskSize, hf.disk]

theorem map_push (v : Byte) (s : State) : push v (f s) = (push v s).map f := by
  unfold push
  rw [hf.sp, hf.map_memWrite]
  cases memWrite (stackAddr s.sp) v s with
  | ok t => exact congrArg Except.ok (hf.with_sp rfl _)
  | error a => rfl

theorem map_pop (s : State) : pop (f s) = (pop s).map (Prod.map id f) := by
  unfold pop memRead
  rw [hf.with_sp rfl, hf.sp, hf.memSize, hf.mem]
  split <;> rfl

/-! The shared operations. -/

theorem map_withReg {k : Byte} {s : State} {go go' : Reg → State} (hgo : ∀ r, regOfIndex k = some r → go' r = f (go r)) :
    withReg k (f s) go' = f (withReg k s go) := by
  cases hk : regOfIndex k with
  | some r => rw [withReg_of_some hk, withReg_of_some hk, hgo r hk]
  | none => rw [withReg_of_none hk, withReg_of_none hk, hf.map_raiseIllegalRegister]

theorem map_storeByte (a : Addr) (v : Byte) (s : State) : storeByte a v (f s) = f (storeByte a v s) := by
  unfold storeByte
  rw [hf.with_wait rfl, hf.memAnswers, hf.map_memWrite]
  split
  · cases memWrite a v s with
    | ok t => rfl
    | error b => exact hf.map_raiseOutOfBounds s b
  · rfl

theorem map_callPushLow (t : Addr) (s : State) : callPushLow t (f s) = f (callPushLow t s) := by
  unfold callPushLow
  rw [hf.with_wait rfl, hf.memAnswers, hf.pc, hf.map_push]
  split
  · cases push (lowByte s.pc) s with
    | ok u => exact hf.with_pc rfl t
    | error a => exact hf.map_raiseOutOfBounds s a
  · rfl

theorem map_callPushHigh (t : Addr) (s : State) : callPushHigh t (f s) = f (callPushHigh t s) := by
  unfold callPushHigh
  rw [hf.with_wait rfl, hf.memAnswers, hf.pc, hf.map_push]
  split
  · cases push (highByte s.pc) s with
    | ok u => exact hf.map_callPushLow t u
    | error a => exact hf.map_raiseOutOfBounds s a
  · rfl

theorem map_retPopHigh (lo : Byte) (s : State) : retPopHigh lo (f s) = f (retPopHigh lo s) := by
  unfold retPopHigh
  rw [hf.with_wait rfl, hf.memAnswers, hf.map_pop]
  split
  · cases pop s with
    | ok p => exact hf.with_pc rfl _
    | error a => exact hf.map_raiseOutOfBounds s a
  · rfl

theorem map_retPopLow (s : State) : retPopLow (f s) = f (retPopLow s) := by
  unfold retPopLow
  rw [hf.with_wait rfl, hf.memAnswers, hf.map_pop]
  split
  · cases pop s with
    | ok p => exact hf.map_retPopHigh p.1 p.2
    | error a => exact hf.map_raiseOutOfBounds s a
  · rfl

theorem map_outWrite (v : Byte) (s : State) : outWrite v (f s) = f (outWrite v s) := by
  unfold outWrite State.emit
  rw [hf.with_output rfl, hf.with_wait rfl, hf.outputReady, hf.output]
  split <;> rfl

theorem map_diskWriteFrom (a : Addr) (v : Byte) (s : State) : diskWriteFrom a v (f s) = f (diskWriteFrom a v s) := by
  unfold diskWriteFrom
  rw [hf.with_wait rfl, hf.diskReady, hf.map_diskWrite]
  split
  · cases diskWrite a v s with
    | ok t => rfl
    | error b => exact hf.map_raiseOutOfBounds s b
  · rfl

/-! The instructions. `g` is what is left of the change once a result is written: nothing, where the result overwrites it. -/

section
variable {g : Reg → State → State} (hg : ∀ r u v, (f u).writeResult r v = g r (u.writeResult r v))
include hg

theorem map_inRead (r : Reg) (s : State) :
    inRead r (f s) = if s.input = [] then f (inRead r s) else g r (inRead r s) := by
  unfold inRead
  rw [hf.with_wait rfl, hf.input]
  cases s.input with
  | nil => rfl
  | cons k ks => exact (congrArg (State.writeResult · r (tokenByte k)) (hf.with_input rfl ks)).trans (hg r _ _)

theorem map_diskReadInto (r : Reg) (a : Addr) (s : State) :
    diskReadInto r a (f s) =
      if s.diskReady = true ∧ a.toNat < s.diskSize then g r (diskReadInto r a s) else f (diskReadInto r a s) := by
  unfold diskReadInto
  rw [hf.with_wait rfl, hf.diskReady, hf.diskRead_eq]
  by_cases hd : s.diskReady = true
  · rcases diskRead_cases a s with ⟨ha, e⟩ | ⟨ha, e⟩ <;> simp only [hd, e, if_true, true_and]
    · rw [if_pos ha, hg]
    · rw [if_neg (by omega), hf.map_raiseOutOfBounds]
  · simp [hd]

/-- An instruction that reads neither Z, where `f` changes it, nor a register that `f` changes gives the outcome it gives without the
change, in which the change shows as it did before. -/
theorem exec_eq {i : Instr} {s t : State} (hz : ∀ x a, i = .jz x a → (f s).z = s.z)
    (hsrc : ∀ r ∈ sourceRegs i, (f s).getReg r = s.getReg r) (h : exec i s = .next t) :
    exec i (f s) = .next ((destReg i s).elim (f t) (g · t)) := by
  cases i <;> cases h <;> refine congrArg Host.Outcome.next ?_
  case nop => rfl
  case load n v =>
    cases hn : regOfIndex (indexOfNibble n) <;> simp [destReg, hn, hg, hf.map_raiseIllegalRegister]
  case store n d =>
    refine hf.map_withReg fun r hr => ?_
    rw [hsrc r (by simp [sourceRegs, hr]), hf.map_storeByte]
  case add n m | sub n m =>
    cases hn : regOfIndex (indexOfNibble n) <;> cases hm : regOfIndex m <;>
      simp_all [destReg, sourceRegs, hf.map_raiseIllegalRegister]
  case jmp x a => exact hf.with_pc rfl a
  case jz x a =>
    rw [hf.with_pc rfl, hz x a rfl]
    split <;> rfl
  case call x a => exact hf.map_callPushHigh a s
  case ret => exact hf.map_retPopLow s
  case inp n =>
    cases hn : regOfIndex (indexOfNibble n) with
    | none => simp [destReg, hn, hf.map_raiseIllegalRegister]
    | some r =>
      rw [withReg_of_some hn, withReg_of_some hn, hf.map_inRead hg]
      by_cases hk : s.input = [] <;> simp [destReg, hn, hk]
  case out n =>
    refine hf.map_withReg fun r hr => ?_
    rw [hsrc r (by simp [sourceRegs, hr]), hf.map_outWrite]
  case diskRead n a =>
    cases hn : regOfIndex (indexOfNibble n) with
    | none => simp [destReg, hn, hf.map_raiseIllegalRegister]
    | some r =>
      rw [withReg_of_some hn, withReg_of_some hn, hf.map_diskReadInto hg]
      by_cases hd : s.diskReady = true ∧ a.toNat < s.diskSize <;> simp [destReg, hn, hd]
  case diskWrite n a =>
    refine hf.map_withReg fun r hr => ?_
    rw [hsrc r (by simp [sourceRegs, hr]), hf.map_diskWriteFrom]
  case unrecognizedD => exact hf.map_stop s (by decide) _ _ _
  case unrecognizedE => exact hf.map_stop s (by decide) _ _ _
  case halt => exact hf.map_stop s (by decide) _ _ _

end

end Unread

/-! The three changes. -/

theorem unread_z (b : Bool) : Unread fun s => { s with z := b } := by
  constructor
  all_goals
    intros
    subst_vars
    rfl

theorem unread_setReg (r : Reg) (v : Byte) : Unread fun s => s.setReg r v := by
  constructor
  all_goals
    intros
    subst_vars
    cases r <;> rfl

/-- The stop outputs of a Running engine changed; an engine that has stopped shows its own. -/
def State.showing (c : StopCause) (k : Byte) (a : Addr) (s : State) : State :=
  if s.runState = .running then { s with stopCause := c, stopInfo := k, stopAddr := a } else s

theorem State.showing_of_running {s : State} (h : s.runState = .running) (c : StopCause) (k : Byte) (a : Addr) :
    s.showing c k a = { s with stopCause := c, stopInfo := k, stopAddr := a } := if_pos h

theorem State.showing_of_not_running {s : State} (h : s.runState ≠ .running) (c : StopCause) (k : Byte) (a : Addr) :
    s.showing c k a = s := if_neg h

theorem unread_showing (c : StopCause) (k : Byte) (a : Addr) : Unread (State.showing c k a) := by
  constructor
  case map_stop =>
    intro s rs hrs c' k' a'
    rw [State.showing_of_not_running (s := s.stop rs c' k' a') hrs]
    unfold State.showing
    split <;> rfl
  all_goals
    intros
    subst_vars
    unfold State.showing
    split <;> rfl

end Sys2Proof.Machine
end

section
/-! PROOF. Illegal register indices, and what an instruction does to the registers, Z, sp and pc (10_state.md R13 to R19). -/

namespace Sys2Proof.Machine

open Sys2Proof.Safety

/-! Register indices. -/

theorem getReg_of_regOfIndex {k : Byte} {r : Reg} (h : regOfIndex k = some r) (s : State) :
    s.getReg r = if k.toNat = 0 then s.x0 else if k.toNat = 1 then s.x1 else if k.toNat = 2 then s.x2 else s.x3 := by
  unfold regOfIndex at h
  split at h
  · next hk => cases h; simp [hk, State.getReg]
  · split at h
    · next hk => cases h; simp [hk, State.getReg]
    · split at h
      · next hk => cases h; simp [hk, State.getReg]
      · split at h
        · next hk => cases h; simp [hk, State.getReg]
        · cases h

/-- The only register field is illegal. -/
theorem regOfIndex_of_illegal_one {k j : Byte} (h : [k].find? (fun k => 3 < k.toNat) = some j) :
    regOfIndex k = none ∧ k = j := by
  cases hk : regOfIndex k with
  | some r => rw [firstIllegal_one_none hk] at h; cases h
  | none => rw [firstIllegal_one_some hk] at h; cases h; exact ⟨rfl, rfl⟩

/-- The first of two register fields is illegal, or the second after a legal one. -/
theorem regOfIndex_of_illegal_two {k m j : Byte} (h : [k, m].find? (fun k => 3 < k.toNat) = some j) :
    (regOfIndex k = none ∧ k = j) ∨ (∃ r, regOfIndex k = some r) ∧ regOfIndex m = none ∧ m = j := by
  cases hk : regOfIndex k with
  | none => rw [firstIllegal_two_first hk] at h; cases h; exact .inl ⟨rfl, rfl⟩
  | some r =>
    have hk3 : ¬ 3 < k.toNat := fun hlt => by simp [(regOfIndex_eq_none_iff k).2 hlt] at hk
    have hm := regOfIndex_of_illegal_one (k := m) (j := j) (by simpa [hk3] using h)
    exact .inr ⟨⟨r, rfl⟩, hm⟩

theorem withReg_of_illegal_one {k j : Byte} (h : [k].find? (fun k => 3 < k.toNat) = some j) (s : State) (go : Reg → State) :
    withReg k s go = s.raiseIllegalRegister j := by
  obtain ⟨hk, rfl⟩ := regOfIndex_of_illegal_one h
  exact withReg_of_none hk s go

theorem withReg_of_illegal_two {k m j : Byte} (h : [k, m].find? (fun k => 3 < k.toNat) = some j) (s : State)
    (go : Reg → Reg → State) : (withReg k s fun r => withReg m s (go r)) = s.raiseIllegalRegister j := by
  rcases regOfIndex_of_illegal_two h with ⟨hk, rfl⟩ | ⟨⟨r, hr⟩, hm, rfl⟩
  · exact withReg_of_none hk s _
  · rw [withReg_of_some hr, withReg_of_none hm]

/-- An instruction with an illegal register does nothing but stop with the first one (R66, R92, R95). -/
theorem exec_of_firstIllegal {i : Instr} {k : Byte} (h : i.firstIllegal = some k) (s : State) :
    exec i s = .next (s.raiseIllegalRegister k) := by
  cases i
  case add | sub => exact congrArg Host.Outcome.next (withReg_of_illegal_two h s _)
  case load | store | inp | out | diskRead | diskWrite => exact congrArg Host.Outcome.next (withReg_of_illegal_one h s _)
  all_goals cases h

theorem destReg_of_firstIllegal {i : Instr} {k : Byte} (h : i.firstIllegal = some k) (s : State) : destReg i s = none := by
  cases i
  case add n m | sub n m =>
    rcases regOfIndex_of_illegal_two h with ⟨hn, _⟩ | ⟨_, hm, _⟩
    · simp [destReg, indexOfNibble, hn]
    · simp [destReg, hm]
  case load n _ | inp n | diskRead n _ => simp [destReg, indexOfNibble, (regOfIndex_of_illegal_one h).1]
  all_goals rfl

/-! What an instruction leaves in the registers, Z, sp and pc. -/

/-- An instruction writes its destination and Z from the byte written, or no register and not Z (R14, R19). -/
theorem exec_registers {i : Instr} {s t : State} (h : exec i s = .next t) :
    (∃ r, destReg i s = some r ∧ SameRegsBut r s t ∧ t.z = (t.getReg r == 0)) ∨
    (destReg i s = none ∧ SameRegs s t ∧ t.z = s.z) := by
  cases exec_shape h
  case result r v hd _ =>
    exact .inl ⟨r, hd, fun q hq => State.getReg_writeResult_ne s v hq, by simp⟩
  case token n r k ks hi hr hk =>
    refine .inl ⟨r, by simp [destReg, hi, hr, hk], fun q hq => ?_, by simp⟩
    simp [State.getReg_writeResult_ne _ _ hq]
  case jump x a hi => rcases hi with rfl | ⟨rfl, _⟩ <;> exact .inr ⟨rfl, fun _ => rfl, rfl⟩
  case waitIn n r hi hr hk => exact .inr ⟨by simp [destReg, hi, hk], fun _ => rfl, rfl⟩
  case waitDiskRead n a r hi hr hd => exact .inr ⟨by simp [destReg, hi, hd], fun _ => rfl, rfl⟩
  case unrecognized op x hi => rcases hi with ⟨_, rfl⟩ | ⟨_, rfl⟩ <;> exact .inr ⟨rfl, fun _ => rfl, rfl⟩
  case illegalRegister k hi =>
    exact .inr ⟨destReg_of_firstIllegal hi s, fun _ => rfl, rfl⟩
  case diskAborts n a hi hl hd ha =>
    refine .inr ⟨?_, fun _ => rfl, rfl⟩
    rcases hi with rfl | rfl
    · simp [destReg, Nat.not_lt.2 ha]
    · rfl
  all_goals
    subst_vars
    exact .inr ⟨rfl, fun _ => rfl, rfl⟩

/-- Only CALL and RET move sp (R18). -/
theorem exec_sp {i : Instr} {s t : State} (hc : ∀ x a, i ≠ .call x a) (hr : ∀ x, i ≠ .ret x) (h : exec i s = .next t) :
    t.sp = s.sp := by
  cases exec_shape h
  case call | callAborts | callAbortsHalfway | waitPushHigh | waitPushLow => exact absurd ‹_› (hc _ _)
  case ret | retAborts | retAbortsHalfway | waitPopLow | waitPopHigh => exact absurd ‹_› (hr _)
  case result | token => simp
  all_goals rfl

/-- Only JMP, JZ, CALL and RET set pc (R16). -/
theorem exec_pc {i : Instr} {s t : State} (hj : ∀ x a, i ≠ .jmp x a) (hz : ∀ x a, i ≠ .jz x a) (hc : ∀ x a, i ≠ .call x a)
    (hr : ∀ x, i ≠ .ret x) (h : exec i s = .next t) : t.pc = s.pc := by
  cases exec_shape h
  case jump hi =>
    rcases hi with rfl | ⟨rfl, _⟩
    · exact absurd rfl (hj _ _)
    · exact absurd rfl (hz _ _)
  case call hi _ _ _ _ => exact absurd hi (hc _ _)
  case ret hi _ _ _ _ => exact absurd hi (hr _)
  case result | token => simp
  all_goals rfl

theorem exec_jmp_pc {x : Nibble} {a : Addr} {s t : State} (h : exec (.jmp x a) s = .next t) : t.pc = a := by
  cases h
  rfl

theorem exec_jz_pc {x : Nibble} {a : Addr} {s t : State} (h : exec (.jz x a) s = .next t) :
    t.pc = if s.z then a else s.pc := by
  cases h
  exact apply_ite State.pc _ _ _

end Sys2Proof.Machine
end

section
/-! PROOF. What does not depend on Z, on a register that is no source, and on the stop outputs: `Unread.exec_eq` at each of the three
changes. -/

namespace Sys2Proof.Machine

open Sys2Proof.Safety

/-- What is left of a changed register `r` once a result is written to `q`. -/
def setRegUnless (r : Reg) (v : Byte) (q : Reg) (s : State) : State := if q = r then s else s.setReg r v

theorem writeResult_with_z (s : State) (b : Bool) (q : Reg) (w : Byte) :
    State.writeResult { s with z := b } q w = s.writeResult q w := by
  cases q <;> rfl

theorem writeResult_setReg (s : State) (r q : Reg) (v w : Byte) :
    (s.setReg r v).writeResult q w = setRegUnless r v q (s.writeResult q w) := by
  cases q <;> cases r <;> rfl

theorem writeResult_showing (s : State) (c : StopCause) (k : Byte) (a : Addr) (q : Reg) (w : Byte) :
    (s.showing c k a).writeResult q w = (s.writeResult q w).showing c k a := by
  by_cases hr : s.runState = .running
  · rw [State.showing_of_running hr, State.showing_of_running (by simpa using hr)]
    cases q <;> rfl
  · rw [State.showing_of_not_running hr, State.showing_of_not_running (by simpa using hr)]

theorem getReg_showing (s : State) (c : StopCause) (k : Byte) (a : Addr) (r : Reg) :
    (s.showing c k a).getReg r = s.getReg r := by
  unfold State.showing
  split <;> rfl

theorem z_showing (s : State) (c : StopCause) (k : Byte) (a : Addr) : (s.showing c k a).z = s.z := by
  unfold State.showing
  split <;> rfl

theorem exec_with_z {i : Instr} {s t : State} (b : Bool) (hi : ∀ x a, i ≠ .jz x a) (h : exec i s = .next t) :
    exec i { s with z := b } = .next ((destReg i s).elim { t with z := b } fun _ => t) :=
  (unread_z b).exec_eq (g := fun _ u => u) (fun q u w => writeResult_with_z u b q w) (fun x a e => absurd e (hi x a)) (fun _ _ => rfl) h

theorem exec_setReg {i : Instr} {s t : State} {r : Reg} (v : Byte) (hr : r ∉ sourceRegs i) (h : exec i s = .next t) :
    exec i (s.setReg r v) = .next ((destReg i s).elim (t.setReg r v) (setRegUnless r v · t)) :=
  (unread_setReg r v).exec_eq (fun q u w => writeResult_setReg u r q v w) (fun _ _ _ => State.setReg_z s r v)
    (fun _ hq => State.getReg_setReg_ne s v fun e => hr (e ▸ hq)) h

theorem exec_showing {i : Instr} {s t : State} (c : StopCause) (k : Byte) (a : Addr) (h : exec i s = .next t) :
    exec i (s.showing c k a) = .next (t.showing c k a) := by
  have := (unread_showing c k a).exec_eq (g := fun _ => State.showing c k a)
    (fun q u w => writeResult_showing u c k a q w) (fun _ _ _ => z_showing s c k a) (fun q _ => getReg_showing s c k a q) h
  cases hd : destReg i s <;> rwa [hd] at this

end Sys2Proof.Machine

namespace Sys2Proof.Proofs

open Sys2Proof.Machine Sys2Proof.Safety

/-- Settles O12: from the two laws of `regOfIndex`. -/
theorem registerIndicesName : Obligations.RegisterIndicesName :=
  fun k s => ⟨(regOfIndex_eq_none_iff k).symm, fun _ h => getReg_of_regOfIndex h s⟩

/-- Settles O32: the check of the registers comes before any effect. -/
theorem illegalRegisterStops : Obligations.IllegalRegisterStops :=
  fun _ s _ h => exec_of_firstIllegal h s

/-- Settles O37: from `exec_registers`, and `Unread.exec_eq` at a changed Z. -/
theorem zeroFlagRule : Obligations.ZeroFlagRule := by
  refine ⟨fun i s t h => ?_, fun i s t b hi h => ?_⟩
  · rcases exec_registers h with ⟨r, hr, _, hz⟩ | ⟨hn, _, hz⟩
    · refine ⟨fun q hq => ?_, fun hn => ?_⟩
      · obtain rfl : r = q := Option.some.inj (hr.symm.trans hq)
        simp [hz]
      · simp [hr] at hn
    · exact ⟨fun q hq => by simp [hn] at hq, fun _ => hz⟩
  · have key := exec_with_z b hi h
    exact ⟨fun ⟨r, hr⟩ => by rwa [hr] at key, fun hn => by rwa [hn] at key⟩

/-- Settles O38: from `exec_registers`, and `Unread.exec_eq` at a changed register. -/
theorem registerReadsAndWrites : Obligations.RegisterReadsAndWrites := by
  refine ⟨fun i s t h r hne => ?_, fun i s t r v hr h => ?_⟩
  · rcases exec_registers h with ⟨q, hq, hsame, _⟩ | ⟨_, hsame, _⟩
    · exact hsame r fun e => hne (e ▸ hq)
    · exact hsame r
  · have key := exec_setReg v hr h
    cases hd : destReg i s with
    | none => exact ⟨fun e => by simp at e, fun _ => by simpa [hd] using key⟩
    | some q =>
      refine ⟨fun e => ?_, fun e => ?_⟩
      · simpa [hd, setRegUnless, Option.some.inj e] using key
      · have hqr : q ≠ r := fun e' => e (congrArg some e')
        simpa [hd, setRegUnless, hqr] using key

/-- Settles O39: CALL and RET by their in-bounds equations, the rest by `exec_sp`. -/
theorem onlyCallAndRetMoveSp : Obligations.OnlyCallAndRetMoveSp := by
  refine ⟨fun i s t hc hr h => exec_sp hc hr h, fun i s t hm hs h => ?_⟩
  have bound (b : Byte) : b.toNat < s.memSize := lt_of_lt_of_le b.isLt hm
  have answers (m : MemAccess) : s.memAnswers m = true := State.memAnswers_of_none hs m
  cases i
  case call x a =>
    rw [exec_call_of_lt (answers _) (answers _) (bound _) (bound _)] at h
    cases h
    simp only
    bv_omega
  case ret x =>
    rw [exec_ret_of_lt (answers _) (answers _) (bound _) (bound _)] at h
    cases h
    simp only
    bv_omega
  all_goals exact congrArg BitVec.toNat (exec_sp (by simp) (by simp) h)

/-- Settles O40: CALL and RET by their in-bounds equations, JMP and JZ by their targets, the rest by `exec_pc`. -/
theorem onlyControlTransfersSetPc : Obligations.OnlyControlTransfersSetPc := by
  refine ⟨fun i s t hc hr h => ?_, fun i s t hm hs h => ?_⟩
  · cases i
    case jmp => exact exec_jmp_pc h
    case jz => exact exec_jz_pc h
    all_goals exact exec_pc (by simp) (by simp) hc hr h
  have bound (b : Byte) : b.toNat < s.memSize := lt_of_lt_of_le b.isLt hm
  have answers (m : MemAccess) : s.memAnswers m = true := State.memAnswers_of_none hs m
  cases i
  case call x a =>
    rw [exec_call_of_lt (answers _) (answers _) (bound _) (bound _)] at h
    cases h
    rfl
  case ret x =>
    rw [exec_ret_of_lt (answers _) (answers _) (bound _) (bound _)] at h
    cases h
    simp only
    rw [BitVec.add_assoc]
    rfl
  case jmp => exact exec_jmp_pc h
  case jz => exact exec_jz_pc h
  all_goals exact exec_pc (by simp) (by simp) (by simp) (by simp) h

/-- Settles O43: `Unread.exec_eq` at changed stop outputs, which a stop overwrites. -/
theorem statusOutputsAreNotRead : Obligations.StatusOutputsAreNotRead := by
  intro i s t c k a hs h
  have key := exec_showing c k a h
  rw [State.showing_of_running hs] at key
  refine ⟨fun ht => ?_, fun ht => ?_⟩
  · rwa [State.showing_of_running ht] at key
  · rwa [State.showing_of_not_running ht] at key

end Sys2Proof.Proofs
end

section
/-! PROOF. Transactions that nobody answers (10_state.md R22; 20_memory.md R39; 40_engine.md R62), the host's moves and the reset state. -/

namespace Sys2Proof.Machine

open Sys2Proof.Safety

/-! A wait taken up again while its collaborator does not answer. -/

section
variable {s : State} (hu : Unanswered s)
include hu

theorem resume_of_unanswered (hf : fetching s = none) : resume s = s := by
  unfold Unanswered at hu
  rcases resume_cases hf with ⟨a, v, hw, e⟩ | ⟨t, hw, e⟩ | ⟨t, hw, e⟩ | ⟨hw, e⟩ | ⟨lo, hw, e⟩ | ⟨r, hw, e⟩ | ⟨v, hw, e⟩ |
    ⟨r, a, hw, e⟩ | ⟨a, v, hw, e⟩ <;> rw [e] <;> rw [hw] at hu <;> refine Eq.trans ?_ (with_wait_restored hw)
  · simp [storeByte, hu]
  · simp [callPushHigh, hu]
  · simp [callPushLow, hu]
  · simp [retPopLow, hu]
  · simp [retPopHigh, hu]
  · simp [inRead, hu]
  · simp [outWrite, hu]
  · simp [diskReadInto, hu]
  · simp [diskWriteFrom, hu]

theorem fetching_of_unanswered {f : Except State State} (hf : fetching s = some f) : f = .error s := by
  cases hw : s.wait <;> simp only [fetching, hw, Option.some.injEq, reduceCtorEq] at hf <;> simp only [Unanswered, hw] at hu
  case fetchWord =>
    rw [← hf, fetchInstr, fetchWord_of_not_answered (s := { s with wait := .none }) hu]
    exact congrArg Except.error (with_wait_restored hw)
  case fetchExtra =>
    obtain ⟨hlt, hm⟩ := hu
    obtain ⟨k, hk⟩ := Nat.exists_eq_succ_of_ne_zero (Nat.sub_ne_zero_of_lt hlt)
    rw [← hf, hk, fetchExtra_succ_of_not_answered k (s := { s with wait := .none }) hm]
    exact congrArg Except.error (with_wait_restored hw)

theorem engineStep_of_unanswered (hr : s.runState = .running) : engineStep s = .next s := by
  cases hf : fetching s with
  | none => rw [engineStep_waiting hr hf, resume_of_unanswered hu hf]
  | some f =>
    rw [engineStep_running hr, hf, fetching_of_unanswered hu hf]
    rfl

end

end Sys2Proof.Machine

namespace Sys2Proof.Proofs

open Sys2Proof.Machine Sys2Proof.Safety

/-- Settles O28: asked again, the waiting transaction records the same wait again. -/
theorem aWaitChangesNothing : Obligations.AWaitChangesNothing :=
  fun _ hr hh hu => (step_of_host_nil hh).trans (engineStep_of_unanswered hu hr)

/-- Settles O57: the fetches made before the unanswered one succeed, and it records the wait. -/
theorem unansweredFetchesMakeTheEngineWait : Obligations.UnansweredFetchesMakeTheEngineWait := by
  intro s w b hr hw hh
  rw [step_of_host_nil hh, engineStep_of_no_wait hr hw, fetchInstr]
  refine ⟨fun hm => ?_, fun hm h0 hb hk => ?_, fun hm h0 hb hk h1 hb1 => ?_⟩
  · rw [fetchWord_of_not_answered hm]
    rfl
  · subst hb
    obtain ⟨k, hk⟩ := Nat.exists_eq_add_of_le' hk
    rw [fetchWord_of_lt (by simp [State.memAnswers_of_some hm]) h0]
    simp only [hk]
    rw [fetchExtra_succ_of_not_answered k (by simp [State.memAnswers, hm, extraAccess])]
    rfl
  · subst hb hb1
    rw [fetchWord_of_lt (by simp [State.memAnswers_of_some hm]) h0]
    simp only [hk]
    rw [fetchExtra_succ_of_lt 1 (by simp [State.memAnswers, hm, extraAccess]) h1,
      fetchExtra_succ_of_not_answered 0 (by simp [State.memAnswers, hm, extraAccess])]
    simp [runFetched, BitVec.add_assoc]

/-- Settles O59: by the equation of each instruction whose memory transaction is unanswered. -/
theorem unansweredMemoryMakesTheInstructionWait : Obligations.UnansweredMemoryMakesTheInstructionWait := by
  refine fun x a s => ⟨fun n d r hr hm => exec_store_of_not_answered hr hm, fun hm => exec_call_of_not_answered hm,
    fun hm h1 => ⟨_, push_of_lt _ h1, ?_⟩, fun hm => exec_ret_of_not_answered hm, fun hm h1 => ?_⟩
  · exact exec_call_of_second_not_answered (by simp [State.memAnswers_of_some hm]) (by simp [State.memAnswers_of_some hm]) h1
  · exact exec_ret_of_second_not_answered (by simp [State.memAnswers_of_some hm]) (by simp [State.memAnswers_of_some hm]) h1

/-- Settles O27: by the equation of each instruction whose port does not answer. -/
theorem unansweredPortsMakeTheEngineWait : Obligations.UnansweredPortsMakeTheEngineWait :=
  fun _ _ _ _ hr => ⟨exec_inp_of_empty hr, exec_out_of_not_ready hr,
    fun hd => ⟨exec_diskRead_of_not_ready hr hd, exec_diskWrite_of_not_ready hr hd⟩⟩

/-- Settles O50: each move is one record update. -/
theorem hostMovesKeepTheCore : Obligations.HostMovesKeepTheCore := by
  refine fun s ms => ⟨fun a v hh hr ha => ?_, fun k hh => step_of_host_cons hh, fun p b hh => ?_, fun m hh => step_of_host_cons hh⟩
  · have hw : memWrite a v { s with host := ms } = .ok { s with mem := s.mem.write a.toNat v, host := ms } :=
      memWrite_of_lt v ha
    refine ⟨{ s with mem := s.mem.write a.toNat v, host := ms }, ?_, Memory.read_write_self _ _ _,
      fun _ hb => Memory.read_write_ne _ _ hb, rfl⟩
    rw [step_of_host_cons hh, hostMove, hostLoad, if_neg hr, hw, stateOr]
  · refine ⟨_, step_of_host_cons hh, ?_⟩
    cases p <;> exact ⟨rfl, rfl, rfl⟩

/-- Settles O51: the engine's step from Halted and from Aborted. -/
theorem aStoppedEngineRunsNothing : Obligations.AStoppedEngineRunsNothing :=
  fun _ hh => ⟨fun hr => (step_of_host_nil hh).trans (engineStep_halted hr),
    fun hr => (step_of_host_nil hh).trans (engineStep_aborted hr)⟩

/-- Settles O56: nothing is stored, nothing has stopped and nothing waits at reset. -/
theorem resetMeetsTheInvariants : Obligations.ResetMeetsTheInvariants := by
  refine ⟨⟨rfl, rfl, ?_, ?_⟩, ⟨rfl, rfl⟩, waitOk_of_none (Nat.zero_le 2) rfl⟩ <;> exact fun _ h => nomatch h

end Sys2Proof.Proofs
end

section
/-! PROOF. The store invariant (20_memory.md R29, R30, R32, R33): a store changes only by a write below its capacity, whatever
instruction, resumed wait or host move makes it, and such a write keeps both stores canonical. -/

namespace Sys2Proof.Machine

open Sys2Proof.Safety

section
variable {s : State} (hs : StoresOk s)
include hs

/-! The two writes. -/

theorem storesOk_mem_write {a : Nat} (v : Byte) (ha : a < s.memSize) : StoresOk { s with mem := s.mem.write a v } := by
  obtain ⟨hmem, hdisk, hmemSize, hdiskSize⟩ := hs
  exact ⟨Memory.wf_write a v hmem, hdisk, Memory.bound_write v ha hmemSize, hdiskSize⟩

theorem storesOk_disk_write {a : Nat} (v : Byte) (ha : a < s.diskSize) : StoresOk { s with disk := s.disk.write a v } := by
  obtain ⟨hmem, hdisk, hmemSize, hdiskSize⟩ := hs
  exact ⟨hmem, Memory.wf_write a v hdisk, hmemSize, Memory.bound_write v ha hdiskSize⟩

theorem storesOk_writeResult (r : Reg) (v : Byte) : StoresOk (s.writeResult r v) := by
  simpa [StoresOk] using hs

/-! The instructions. -/

theorem storesOk_exec {i : Instr} {t : State} (h : exec i s = .next t) : StoresOk t := by
  cases exec_shape h
  case result r v _ _ => exact storesOk_writeResult hs r v
  case token r k ks _ _ _ => exact storesOk_writeResult (s := { s with input := ks }) hs r _
  case store hd => exact storesOk_mem_write hs _ hd
  case call h1 h2 => exact storesOk_mem_write (storesOk_mem_write hs _ h1) _ h2
  case callAbortsHalfway h1 _ => exact storesOk_mem_write hs _ h1
  case waitPushLow h1 => exact storesOk_mem_write hs _ h1
  case diskWrite ha => exact storesOk_disk_write hs _ ha
  -- the other shapes change no store
  all_goals exact hs

/-! The waits and the fetch. -/

theorem storesOk_storeByte (a : Addr) (v : Byte) : StoresOk (storeByte a v s) := by
  rcases storeByte_cases a v s with ⟨_, e⟩ | ⟨_, ha, e⟩ | ⟨_, _, e⟩ <;> rw [e]
  · exact hs
  · exact storesOk_mem_write hs v ha
  · exact hs

theorem storesOk_callPushLow (t : Addr) : StoresOk (callPushLow t s) := by
  rcases callPushLow_cases t s with ⟨_, e⟩ | ⟨_, ha, e⟩ | ⟨_, _, e⟩ <;> rw [e]
  · exact hs
  · exact storesOk_mem_write hs _ ha
  · exact hs

theorem storesOk_retPopHigh (lo : Byte) : StoresOk (retPopHigh lo s) := by
  rcases retPopHigh_cases lo s with ⟨_, e⟩ | ⟨_, _, e⟩ | ⟨_, _, e⟩ <;> rw [e] <;> exact hs

theorem storesOk_inRead (r : Reg) : StoresOk (inRead r s) := by
  rcases inRead_cases r s with ⟨_, e⟩ | ⟨k, ks, _, e⟩ <;> rw [e]
  · exact hs
  · exact storesOk_writeResult (s := { s with input := ks }) hs r _

theorem storesOk_outWrite (v : Byte) : StoresOk (outWrite v s) := by
  rcases outWrite_cases v s with ⟨_, e⟩ | ⟨_, e⟩ <;> rw [e] <;> exact hs

theorem storesOk_diskReadInto (r : Reg) (a : Addr) : StoresOk (diskReadInto r a s) := by
  rcases diskReadInto_cases r a s with ⟨_, e⟩ | ⟨_, _, e⟩ | ⟨_, _, e⟩ <;> rw [e]
  · exact hs
  · exact storesOk_writeResult hs r _
  · exact hs

theorem storesOk_diskWriteFrom (a : Addr) (v : Byte) : StoresOk (diskWriteFrom a v s) := by
  rcases diskWriteFrom_cases a v s with ⟨_, e⟩ | ⟨_, ha, e⟩ | ⟨_, _, e⟩ <;> rw [e]
  · exact hs
  · exact storesOk_disk_write hs v ha
  · exact hs

/-- A first push or pop that waited is the whole CALL or RET. -/
theorem storesOk_resume (hf : fetching s = none) : StoresOk (resume s) := by
  have idle : StoresOk { s with wait := .none } := hs
  rcases resume_cases hf with ⟨a, v, _, e⟩ | ⟨t, _, e⟩ | ⟨t, _, e⟩ | ⟨_, e⟩ | ⟨lo, _, e⟩ | ⟨r, _, e⟩ | ⟨v, _, e⟩ |
    ⟨r, a, _, e⟩ | ⟨a, v, _, e⟩ <;> rw [e]
  · exact storesOk_storeByte idle a v
  · exact storesOk_exec idle (i := .call 0 t) rfl
  · exact storesOk_callPushLow idle t
  · exact storesOk_exec idle (i := .ret 0) rfl
  · exact storesOk_retPopHigh idle lo
  · exact storesOk_inRead idle r
  · exact storesOk_outWrite idle v
  · exact storesOk_diskReadInto idle r a
  · exact storesOk_diskWriteFrom idle a v

theorem storesOk_fetching_ok {u : State} (h : fetching s = some (.ok u)) : StoresOk u := by
  rw [(fetching_ok h).1]
  exact hs

theorem storesOk_fetching_error {t : State} (h : fetching s = some (.error t)) : StoresOk t := by
  rcases fetching_error h with rfl | ⟨p, w, bs, _, ⟨a, rfl, _⟩ | ⟨_, rfl⟩⟩ <;> exact hs

theorem storesOk_engineStep {t : State} (h : engineStep s = .next t) : StoresOk t := by
  rcases engineStep_cases h with ⟨_, rfl⟩ | ⟨_, u, hf, hu⟩ | ⟨_, hf⟩ | ⟨_, hf, rfl⟩
  · exact hs
  · exact storesOk_exec (storesOk_fetching_ok hs hf) hu
  · exact storesOk_fetching_error hs hf
  · exact storesOk_resume hs hf

/-! Reset while Running: any number of the abandoned instruction's transactions done (R108). -/

theorem storesOk_commitWait : StoresOk (commitWait s) := by
  cases hw : s.wait <;> simp only [commitWait, hw]
  case diskWrite a v =>
    rcases diskWrite_cases a v s with ⟨ha, e⟩ | ⟨_, e⟩ <;> rw [e]
    · exact storesOk_disk_write hs v ha
    · exact hs
  -- no other transaction in flight changes a store
  all_goals exact hs

theorem storesOk_afterFirstPush : StoresOk (afterFirstPush s) := by
  unfold afterFirstPush
  split
  · rcases push_cases (highByte s.pc) s with ⟨ha, e⟩ | ⟨_, e⟩ <;> rw [e]
    · exact storesOk_mem_write hs _ ha
    · exact hs
  · exact hs

theorem storesOk_afterAllTransactions (i : Instr) : StoresOk (afterAllTransactions i s) := by
  unfold afterAllTransactions
  split
  case h_1 t h => exact storesOk_commitWait (storesOk_exec hs h)
  all_goals exact hs

theorem storesOk_afterTransactions (k : Nat) (i : Instr) : StoresOk (afterTransactions k i s) :=
  match k with
  | 0 => hs
  | 1 => by
    cases i
    case call => exact storesOk_afterFirstPush hs
    all_goals exact storesOk_afterAllTransactions hs _
  | _ + 2 => storesOk_afterAllTransactions hs i

theorem storesOk_afterWaiting (k : Nat) (hf : fetching s = none) : StoresOk (afterWaiting k s) :=
  have rest : StoresOk (afterRest s) := storesOk_commitWait (storesOk_resume hs hf)
  match k with
  | 0 => hs
  | 1 => by
    simp only [afterWaiting]
    split
    · exact storesOk_afterFirstPush hs
    all_goals exact rest
  | _ + 2 => rest

theorem storesOk_abandon (k : Nat) : StoresOk (abandon k s) := by
  unfold abandon
  split
  · next u hf => exact storesOk_afterTransactions (storesOk_fetching_ok hs hf) k _
  · next t hf => exact storesOk_fetching_error hs hf
  · next hf => exact storesOk_afterWaiting hs k hf

theorem storesOk_hostReset : StoresOk (hostReset s) := by
  unfold hostReset
  split
  · exact storesOk_abandon hs _
  · exact hs

theorem storesOk_step {t : State} (h : step s = .next t) : StoresOk t := by
  rcases step_cases h with ⟨ms, _, he⟩ | ⟨ms, _, rfl⟩ | ⟨e, ms, _, _, _, rfl⟩ | ⟨e, ms, _, _, rfl⟩ |
    ⟨a, v, ms, _, _, ha, rfl⟩ | ⟨a, v, ms, _, _, _, rfl⟩ | ⟨k, ms, _, rfl⟩ | ⟨p, b, ms, _, rfl⟩ | ⟨m, ms, _, rfl⟩
  · exact storesOk_engineStep (s := { s with host := ms }) hs he
  · exact storesOk_hostReset (s := { s with host := ms }) hs
  · exact hs
  · exact hs
  · exact storesOk_mem_write hs v ha
  · exact hs
  · exact hs
  · cases p <;> exact hs
  · exact hs

end

end Sys2Proof.Machine

namespace Sys2Proof.Proofs

open Sys2Proof.Machine Sys2Proof.Safety

/-- Settles O53: a step changes a store only by writes below its capacity. -/
theorem everyStepKeepsTheStoresCanonical : Obligations.EveryStepKeepsTheStoresCanonical :=
  fun _ _ hs h => storesOk_step hs h

end Sys2Proof.Proofs
end

section
/-! PROOF. The store ports, what an instruction writes to the stores and the channels, and which instructions abort (20_memory.md R28 to
R47). -/

namespace Sys2Proof.Machine

open Sys2Proof.Safety

/-! The ports: a read after a write. -/

theorem memRead_of_ge {a : Addr} {s : State} (h : s.memSize ≤ a.toNat) : memRead a s = .error a := if_neg (Nat.not_lt.2 h)

theorem memWrite_of_ge {a : Addr} {s : State} (v : Byte) (h : s.memSize ≤ a.toNat) : memWrite a v s = .error a :=
  if_neg (Nat.not_lt.2 h)

theorem diskRead_of_lt {a : Addr} {s : State} (h : a.toNat < s.diskSize) : diskRead a s = .ok (s.disk.read a.toNat) := if_pos h

theorem diskRead_of_ge {a : Addr} {s : State} (h : s.diskSize ≤ a.toNat) : diskRead a s = .error a := if_neg (Nat.not_lt.2 h)

theorem diskWrite_of_lt {a : Addr} {s : State} (v : Byte) (h : a.toNat < s.diskSize) :
    diskWrite a v s = .ok { s with disk := s.disk.write a.toNat v } := if_pos h

theorem diskWrite_of_ge {a : Addr} {s : State} (v : Byte) (h : s.diskSize ≤ a.toNat) : diskWrite a v s = .error a :=
  if_neg (Nat.not_lt.2 h)

theorem memRead_write_self {a : Addr} {s : State} (v : Byte) (h : a.toNat < s.memSize) :
    memRead a { s with mem := s.mem.write a.toNat v } = .ok v := by
  rw [memRead_of_lt (s := { s with mem := s.mem.write a.toNat v }) h, Memory.read_write_self]

theorem memRead_write_ne {a b : Addr} (s : State) (v : Byte) (h : b ≠ a) :
    memRead b { s with mem := s.mem.write a.toNat v } = memRead b s := by
  simp only [memRead, Memory.read_write_ne s.mem v fun e => h (BitVec.eq_of_toNat_eq e)]

theorem diskRead_write_self {a : Addr} {s : State} (v : Byte) (h : a.toNat < s.diskSize) :
    diskRead a { s with disk := s.disk.write a.toNat v } = .ok v := by
  rw [diskRead_of_lt (s := { s with disk := s.disk.write a.toNat v }) h, Memory.read_write_self]

theorem diskRead_write_ne {a b : Addr} (s : State) (v : Byte) (h : b ≠ a) :
    diskRead b { s with disk := s.disk.write a.toNat v } = diskRead b s := by
  simp only [diskRead, Memory.read_write_ne s.disk v fun e => h (BitVec.eq_of_toNat_eq e)]

/-! What an instruction writes. -/

theorem exec_capacities {i : Instr} {s t : State} (h : exec i s = .next t) :
    t.memSize = s.memSize ∧ t.diskSize = s.diskSize := by
  cases exec_shape h
  case result | token => simp
  all_goals exact ⟨rfl, rfl⟩

/-- STORE and the pushes address memory by 8 bits (R40). -/
theorem exec_mem_read_of_ge {i : Instr} {s t : State} (h : exec i s = .next t) {a : Nat} (ha : 256 ≤ a) :
    t.mem.read a = s.mem.read a := by
  have low (b v : Byte) (m : Memory) : (m.write b.toNat v).read a = m.read a :=
    Memory.read_write_ne m v (by have := b.isLt; omega)
  cases exec_shape h
  case result | token => simp
  case store => exact low _ _ _
  case call => exact (low _ _ _).trans (low _ _ _)
  case callAbortsHalfway => exact low _ _ _
  case waitPushLow => exact low _ _ _
  all_goals rfl

/-- DISK_WRITE addresses the persistent store by 16 bits (R32). -/
theorem exec_disk_read_of_ge {i : Instr} {s t : State} (h : exec i s = .next t) {a : Nat} (ha : 65536 ≤ a) :
    t.disk.read a = s.disk.read a := by
  cases exec_shape h
  case result | token => simp
  case diskWrite b r _ _ _ _ => exact Memory.read_write_ne s.disk _ (by have := b.isLt; omega)
  all_goals rfl

theorem exec_mem {i : Instr} {s t : State} (hst : ∀ n d, i ≠ .store n d) (hc : ∀ x a, i ≠ .call x a) (h : exec i s = .next t) :
    t.mem = s.mem := by
  cases exec_shape h
  case result | token => simp
  case store hi _ _ _ => exact absurd hi (hst _ _)
  case call hi _ _ _ _ => exact absurd hi (hc _ _)
  case callAbortsHalfway hi _ _ _ _ => exact absurd hi (hc _ _)
  case waitPushLow hi _ _ _ => exact absurd hi (hc _ _)
  all_goals rfl

theorem exec_disk {i : Instr} {s t : State} (hd : ∀ n a, i ≠ .diskWrite n a) (h : exec i s = .next t) : t.disk = s.disk := by
  cases exec_shape h
  case result | token => simp
  case diskWrite hi _ _ _ => exact absurd hi (hd _ _)
  all_goals rfl

theorem exec_input {i : Instr} {s t : State} (h : exec i s = .next t) :
    t.input = s.input ∨ ∃ n, i = .inp n ∧ t.input = s.input.drop 1 := by
  cases exec_shape h
  case result => exact .inl (by simp)
  case token n r k ks hi _ hk => exact .inr ⟨n, hi, by simp [hk]⟩
  all_goals exact .inl rfl

theorem exec_output {i : Instr} {s t : State} (h : exec i s = .next t) :
    t.output = s.output ∨ ∃ n r, i = .out n ∧ regOfIndex (indexOfNibble n) = some r ∧ t.output = s.output ++ [s.getReg r] := by
  cases exec_shape h
  case result | token => exact .inl (by simp)
  case emit n r hi hr _ => exact .inr ⟨n, r, hi, hr, rfl⟩
  all_goals exact .inl rfl

/-! Aborts. -/

theorem exists_regOfIndex_of_legal {n : Nibble} (h : [indexOfNibble n].find? (fun k => 3 < k.toNat) = none) :
    ∃ r, regOfIndex (indexOfNibble n) = some r := by
  cases hr : regOfIndex (indexOfNibble n) with
  | some r => exact ⟨r, rfl⟩
  | none => rw [firstIllegal_one_some hr] at h; cases h

/-- With a conforming memory a Running engine's abort is a disk access at or above D: every memory address is in bounds. -/
theorem diskAccess_of_aborted {i : Instr} {s t : State} (hm : 65536 ≤ s.memSize) (hr : s.runState = .running)
    (h : exec i s = .next t) (habort : t.runState = .aborted) :
    ∃ n a, (i = .diskRead n a ∨ i = .diskWrite n a) ∧ i.firstIllegal = none ∧ s.diskReady = true ∧ s.diskSize ≤ a.toNat := by
  have inBounds (b : Byte) : ¬ s.memSize ≤ b.toNat := by have := b.isLt; omega
  have running : s.runState ≠ .aborted := by simp [hr]
  cases exec_shape h
  case diskAborts n a hi hl hd ha => exact ⟨n, a, hi, hl, hd, ha⟩
  case callAborts h1 => exact absurd h1 (inBounds _)
  case callAbortsHalfway h2 => exact absurd h2 (inBounds _)
  case retAborts h1 => exact absurd h1 (inBounds _)
  case retAbortsHalfway h2 => exact absurd h2 (inBounds _)
  case storeAborts h1 => exact absurd h1 (inBounds _)
  case halt | unrecognized | illegalRegister => cases habort
  case result | token => exact absurd (by simpa using habort) running
  all_goals exact absurd habort running

theorem exec_disk_of_ge {i : Instr} {n : Nibble} {a : Addr} {s : State} (hi : i = .diskRead n a ∨ i = .diskWrite n a)
    (hl : i.firstIllegal = none) (hd : s.diskReady = true) (ha : s.diskSize ≤ a.toNat) :
    exec i s = .next (s.raiseOutOfBounds a) := by
  rcases hi with rfl | rfl <;> obtain ⟨r, hr⟩ := exists_regOfIndex_of_legal hl
  · exact exec_diskRead_of_ge hr hd ha
  · exact exec_diskWrite_of_ge hr hd ha

end Sys2Proof.Machine

namespace Sys2Proof.Proofs

open Sys2Proof.Machine Sys2Proof.Safety

/-- Settles O9: each port's answer below the capacity and at or above it. -/
theorem storePortsReadBackWhatWasWritten : Obligations.StorePortsReadBackWhatWasWritten := by
  refine fun s a v => ⟨fun h => ?_, fun h => ⟨memWrite_of_ge v h, memRead_of_ge h⟩, fun h => ?_,
    fun h => ⟨diskWrite_of_ge v h, diskRead_of_ge h⟩⟩
  · exact ⟨_, memWrite_of_lt v h, memRead_write_self v h, fun b hb => memRead_write_ne s v hb, fun _ => rfl, rfl, rfl, rfl,
      ⟨rfl, rfl, rfl, rfl, rfl, rfl, rfl⟩, ⟨rfl, fun _ => rfl⟩, ⟨rfl, rfl⟩, ⟨rfl, rfl, rfl, rfl, rfl⟩⟩
  · exact ⟨_, diskWrite_of_lt v h, diskRead_write_self v h, fun b hb => diskRead_write_ne s v hb, fun _ => rfl, rfl, rfl, rfl,
      ⟨rfl, rfl, rfl, rfl, rfl, rfl, rfl⟩, ⟨rfl, fun _ => rfl⟩, ⟨rfl, rfl⟩, ⟨rfl, rfl, rfl, rfl, rfl⟩⟩

/-- Settles O26: the read depends on the persistent store alone, where the write has put the byte. -/
theorem diskWriteIsDurable : Obligations.DiskWriteIsDurable := by
  intro n m a s t u r q hr hq hs ha h hdisk hsize hu
  rw [exec_diskWrite_of_lt hr hs ha] at h
  cases h
  have hread : u.disk.read a.toNat = s.getReg r := by rw [hdisk, Memory.read_write_self]
  refine ⟨_, exec_diskRead_of_lt hq hu (hsize ▸ ha), ?_⟩
  simp [hread]

/-- Settles O34: with a conforming memory only the disk port is ever out of bounds. -/
theorem onlyDiskAccessesAbort : Obligations.OnlyDiskAccessesAbort := by
  refine fun i s t hm hr h => ⟨diskAccess_of_aborted hm hr h, fun ⟨n, a, hi, hl, hd, ha⟩ => ?_⟩
  rw [exec_disk_of_ge hi hl hd ha] at h
  cases h
  rfl

/-- Settles O41: the facts about what an instruction writes, put together. -/
theorem writesStayInTheirWindows : Obligations.WritesStayInTheirWindows := by
  intro i s t h
  obtain ⟨hm, hd⟩ := exec_capacities h
  exact ⟨hm, hd, fun _ ha => exec_mem_read_of_ge h ha, fun _ ha => exec_disk_read_of_ge h ha,
    fun hst hc => exec_mem hst hc h, fun hd => exec_disk hd h⟩

/-- Settles O42: the input and the output after an instruction. -/
theorem channelsMoveOneValueAtATime : Obligations.ChannelsMoveOneValueAtATime :=
  fun _ _ _ h => ⟨exec_input h, exec_output h⟩

/-- Settles O44: the fetch reads the memory that STORE has written. -/
theorem aStoreIsSeenByTheNextFetch : Obligations.AStoreIsSeenByTheNextFetch := by
  intro n d s t r hr hd hm hw h hpc
  rw [addr8Of_toNat] at hd
  obtain rfl := Host.Outcome.next.inj ((exec_store_of_lt hr hm hd).symm.trans h)
  have hpcNat : s.pc.toNat = d.toNat := (congrArg BitVec.toNat hpc).trans (addr8Of_toNat d)
  have hread : (s.mem.write d.toNat (s.getReg r)).read s.pc.toNat = s.getReg r := by rw [hpcNat, Memory.read_write_self]
  rw [fetchWord_of_lt (s := { s with mem := s.mem.write d.toNat (s.getReg r) }) hw (lt_of_eq_of_lt hpcNat hd), hread]

end Sys2Proof.Proofs
end

section
/-! PROOF. A wait that is answered ends as its instruction, or as what is left of it (20_memory.md R39; 40_engine.md R62, R71; 41_data_alu.md
R76; 42_control_flow.md R81, R82; 43_io.md R83 to R86). -/

namespace Sys2Proof.Machine

/-- The bytes after a word that make exactly one instruction: as many as its opcode asks for. -/
theorem decode_cons_eq_ok {w : Byte} {ex : List Byte} {i : Instr} (h : decode (w :: ex) = .ok (i, [])) :
    ex.length = extraCount w ∧ i = decodeBytes w (ex.getD 0 0) (ex.getD 1 0) := by
  rw [decode] at h
  split at h
  · cases h
  · next hlt =>
    obtain ⟨hi, hrest⟩ := Prod.mk.inj (Except.ok.inj h)
    have hle := List.drop_eq_nil_iff.1 hrest
    exact ⟨by omega, hi.symm⟩

/-- A step that takes up a transaction after the fetch. -/
theorem step_of_waiting {s : State} (hr : s.runState = .running) (hh : s.host = []) (hf : fetching s = none) :
    step s = .next (resume s) :=
  (step_of_host_nil hh).trans (engineStep_waiting hr hf)

/-- A step that takes up the fetch of the word begins the instruction again. -/
theorem step_of_fetchWord_wait {s : State} (hr : s.runState = .running) (hh : s.host = []) (hw : s.wait = .fetchWord) :
    step s = step { s with wait := .none } := by
  rw [step_of_host_nil hh, step_of_host_nil (s := { s with wait := .none }) hh, engineStep_running hr,
    engineStep_of_no_wait (s := { s with wait := .none }) hr rfl, fetching, hw]

/-- A step that takes up the fetch of an extra byte and gets all that are missing runs the instruction. -/
theorem step_of_fetchExtra_wait {s u : State} (hr : s.runState = .running) (hh : s.host = []) (hw : s.wait = .fetchExtra)
    (hu : fetchExtra (extraCount s.ir - s.extra.length) { s with wait := .none } = .ok u) : step s = exec u.fetched u := by
  rw [step_of_host_nil hh, engineStep_running hr, fetching, hw]
  simp only [hu, runFetched]

end Sys2Proof.Machine

namespace Sys2Proof.Proofs

open Sys2Proof.Machine Sys2Proof.Safety

/-- Settles O58: a conforming memory that answers gives the missing bytes, which decode with those held. -/
theorem aFetchWaitEndsAsItsInstruction : Obligations.AFetchWaitEndsAsItsInstruction := by
  refine ⟨fun s hr hh hw => step_of_fetchWord_wait hr hh hw, fun s missing i hr hh hw hm hsize hb hdec => ?_⟩
  obtain ⟨hlen, rfl⟩ := decode_cons_eq_ok (ex := s.extra ++ missing) hdec
  have hmissing : missing.length = extraCount s.ir - s.extra.length := by
    rw [List.length_append] at hlen
    omega
  have hfetch := fetchExtra_conforming (s := { s with wait := .none }) hm hsize hb hmissing
  rw [step_of_fetchExtra_wait hr hh hw hfetch, hmissing]
  rfl

/-- Settles O29: the operation taken up is the one the instruction runs once its register is named. -/
theorem aWaitEndsAsItsInstruction : Obligations.AWaitEndsAsItsInstruction := by
  intro s n r a hr hh hn
  have taken : fetching s = none → step s = .next (resume s) := step_of_waiting hr hh
  refine ⟨fun hw => ?_, fun hw => ?_, fun hw => ?_, fun hw => ?_, fun d hw => ?_, fun x hw => ?_, fun hw hm hsp => ?_,
    fun x hw => ?_, fun lo hw hm hsp => ?_⟩ <;> rw [taken (by simp only [fetching, hw]), resume, hw]
  · simp [exec, execIn, hn]
  · simp [exec, execOut, hn]
  · simp [exec, execDiskRead, hn]
  · simp [exec, execDiskWrite, hn]
  · simp [exec, execStore, hn]
  · rfl
  · refine ⟨_, push_of_lt (s := { s with wait := .none }) _ hsp, ?_⟩
    exact congrArg Host.Outcome.next (callPushLow_of_lt (s := { s with wait := .none }) hm hsp)
  · rfl
  · exact congrArg Host.Outcome.next (retPopHigh_of_lt (s := { s with wait := .none }) hm hsp)

end Sys2Proof.Proofs
end

section
/-! PROOF. The encoding (30_encoding.md R48 to R57): a word followed by as many bytes as its opcode asks for is read as one instruction,
whatever comes after, and a step runs what is read. -/

namespace Sys2Proof

/-! The decoder on a word and its extra bytes. -/

/-- Only the extra bytes that the word asks for reach the instruction (R49). -/
theorem decodeBytes_congr {w b1 b2 c1 c2 : Byte} (h : [b1, b2].take (extraCount w) = [c1, c2].take (extraCount w)) :
    decodeBytes w b1 b2 = decodeBytes w c1 c2 := by
  rw [← extraBytes_decodeBytes w b1 b2] at h
  unfold decodeBytes at h ⊢
  split at h <;> simp_all [Instr.extraBytes]

theorem decodeBytes_append {w : Byte} {ex : List Byte} (h : ex.length = extraCount w) (rest : List Byte) :
    decodeBytes w ((ex ++ rest).getD 0 0) ((ex ++ rest).getD 1 0) = decodeBytes w (ex.getD 0 0) (ex.getD 1 0) := by
  apply decodeBytes_congr
  rw [← h]
  match ex with
  | [] | [_] | _ :: _ :: _ => rfl

/-- A word and the extra bytes it asks for are one instruction, and what follows is the rest. -/
theorem decode_cons_append {w : Byte} {ex : List Byte} (h : ex.length = extraCount w) (rest : List Byte) :
    decode (w :: (ex ++ rest)) = .ok (decodeBytes w (ex.getD 0 0) (ex.getD 1 0), rest) := by
  have enough : ¬ (ex ++ rest).length < extraCount w := by simp [h]
  rw [decode, if_neg enough, decodeBytes_append h, ← h, List.drop_left]

/-- What the decoder accepts has that form. -/
theorem decode_eq_ok {bs rest : List Byte} {i : Instr} (h : decode bs = .ok (i, rest)) :
    ∃ w ex, bs = w :: (ex ++ rest) ∧ ex.length = extraCount w ∧ i = decodeBytes w (ex.getD 0 0) (ex.getD 1 0) := by
  cases bs with
  | nil => cases h
  | cons w tail =>
    by_cases short : tail.length < extraCount w
    · rw [decode, if_pos short] at h
      cases h
    · have hlen : (tail.take (extraCount w)).length = extraCount w := by
        rw [List.length_take]
        omega
      have hdec := decode_cons_append hlen (tail.drop (extraCount w))
      rw [List.take_append_drop, h] at hdec
      obtain ⟨rfl, rfl⟩ := Prod.mk.inj (Except.ok.inj hdec)
      exact ⟨w, _, by rw [List.take_append_drop], hlen, rfl⟩

/-- The decoder refuses a list that has no word, or too few bytes after it (R54). -/
theorem decode_eq_error_iff {bs : List Byte} :
    (∃ e, decode bs = .error e) ↔ bs = [] ∨ ∃ w rest, bs = w :: rest ∧ rest.length < extraCount w := by
  constructor
  · rintro ⟨e, h⟩
    cases bs with
    | nil => exact .inl rfl
    | cons w rest =>
      refine .inr ⟨w, rest, rfl, Classical.byContradiction fun enough => ?_⟩
      rw [decode, if_neg enough] at h
      cases h
  · rintro (rfl | ⟨w, rest, rfl, short⟩)
    · exact ⟨_, rfl⟩
    · exact ⟨_, if_pos short⟩

/-! The encoder on what is decoded. -/

theorem encode_decodeBytes {w : Byte} {ex : List Byte} (h : ex.length = extraCount w) :
    encode (decodeBytes w (ex.getD 0 0) (ex.getD 1 0)) = w :: ex := by
  have hex : [ex.getD 0 0, ex.getD 1 0].take ex.length = ex := by
    have hle : ex.length ≤ 2 := h ▸ Machine.extraCount_le w
    match ex, hle with
    | [], _ | [_], _ | [_, _], _ => rfl
  rw [encode, opcode_decodeBytes, operand_decodeBytes, wordOf_fields, extra_decodeBytes, ← h, hex]

/-! Lengths and legality. -/

/-- The table of R54 by opcode. -/
theorem extraBytes_eq_of_opcode (i : Instr) : i.extraBytes =
    if i.opcode ∈ ([0x1, 0x2, 0x3, 0x4] : List Nibble) then 1
    else if i.opcode ∈ ([0x5, 0x6, 0x7, 0xB, 0xC] : List Nibble) then 2 else 0 := by
  cases i <;> rfl

/-- The two kinds of illegal encoding (R56). -/
theorem wellFormed_eq_false_iff (i : Instr) : i.wellFormed = false ↔
    (∃ x, i = .unrecognizedD x ∨ i = .unrecognizedE x) ∨ ∃ k, i.firstIllegal = some k := by
  have hop : i.opcodeDefined = false ↔ ∃ x, i = .unrecognizedD x ∨ i = .unrecognizedE x := by
    cases i <;> simp [Instr.opcodeDefined]
  have hreg : i.firstIllegal.isNone = false ↔ ∃ k, i.firstIllegal = some k := by
    rw [← Option.isSome_iff_exists]
    cases i.firstIllegal <;> simp
  rw [Instr.wellFormed, Bool.and_eq_false_iff, hop, hreg]

end Sys2Proof

namespace Sys2Proof.Machine

open Sys2Proof.Safety

/-! Clean errors. -/

/-- Of the shapes of a next state, only the stops for an unrecognized opcode and for an illegal register are clean errors. -/
theorem illegal_of_cleanErrorEnd {i : Instr} {s t : State} (hr : s.runState = .running) (h : exec i s = .next t)
    (hc : CleanErrorEnd t) : i.wellFormed = false := by
  obtain ⟨hhalt, hcause⟩ := hc
  have running : s.runState ≠ .halted := by simp [hr]
  rw [wellFormed_eq_false_iff]
  cases exec_shape h
  case unrecognized op x hi => exact .inl ⟨x, hi.imp And.right And.right⟩
  case illegalRegister k hi => exact .inr ⟨k, hi⟩
  case halt => rcases hcause with hcause | hcause <;> cases hcause
  case callAborts | callAbortsHalfway | retAborts | retAbortsHalfway | storeAborts | diskAborts => cases hhalt
  case result | token => exact absurd (by simpa using hhalt) running
  -- the other shapes leave the run state as it was
  all_goals exact absurd hhalt running

theorem cleanErrorEnd_of_illegal {i : Instr} {s t : State} (hi : i.wellFormed = false) (h : exec i s = .next t) :
    CleanErrorEnd t := by
  rcases (wellFormed_eq_false_iff i).1 hi with ⟨x, rfl | rfl⟩ | ⟨k, hk⟩
  · cases h
    exact ⟨rfl, .inl rfl⟩
  · cases h
    exact ⟨rfl, .inl rfl⟩
  · rw [exec_of_firstIllegal hk] at h
    cases h
    exact ⟨rfl, .inr rfl⟩

/-! The step. -/

/-- The engine at the beginning of an instruction whose bytes a conforming memory holds and answers. -/
theorem engineStep_of_bytesAt {s : State} {w : Byte} {ex : List Byte} {i : Instr} (hr : s.runState = .running)
    (hw : s.wait = .none) (hs : s.memStall = none) (hm : 65536 ≤ s.memSize) (hb : BytesAt s.mem s.pc (w :: ex))
    (hdec : decode (w :: ex) = .ok (i, [])) : engineStep s = exec i (afterFetch s w ex) := by
  obtain ⟨hlen, rfl⟩ := decode_cons_eq_ok hdec
  rw [engineStep_of_no_wait hr hw, fetchInstr_conforming hs hm hb hlen]
  rfl

end Sys2Proof.Machine

namespace Sys2Proof.Proofs

open Sys2Proof.Machine Sys2Proof.Safety

/-- Settles O1: the encoding is a word with as many extra bytes as it asks for. -/
theorem decodeOfEncodeIsTheInstruction : Obligations.DecodeOfEncodeIsTheInstruction := by
  intro i rest
  have hlen : i.extra.length = extraCount (wordOf i.opcode i.operand) := by rw [extra_length, extraCount_encode]
  rw [encode, List.cons_append, decode_cons_append hlen, decodeBytes_encode]

/-- Settles O2: what is accepted is a word with its extra bytes, which the encoder gives back. -/
theorem encodeOfDecodeIsTheBytes : Obligations.EncodeOfDecodeIsTheBytes := by
  intro bs i rest h
  obtain ⟨w, ex, rfl, hlen, rfl⟩ := decode_eq_ok h
  rw [encode_decodeBytes hlen, List.cons_append]

/-- Settles O33: both directions from what makes an encoding illegal. -/
theorem cleanErrorsAreExactlyIllegalEncodings : Obligations.CleanErrorsAreExactlyIllegalEncodings :=
  fun _ _ _ hr h => ⟨illegal_of_cleanErrorEnd hr h, fun hi => cleanErrorEnd_of_illegal hi h⟩

/-- Settles O4: the word's length is that of any instruction with its opcode. -/
theorem lengthIsFixedByTheOpcode : Obligations.LengthIsFixedByTheOpcode := by
  refine ⟨fun w => ?_, fun _ => decode_eq_error_iff⟩
  rw [extraCount, extraBytes_eq_of_opcode, opcode_decodeBytes]

/-- Settles O5: the decoder run on each word. -/
theorem knownWordsDecode : Obligations.KnownWordsDecode := ⟨rfl, rfl, rfl, rfl, rfl⟩

/-- Settles O6: the engine's step on the bytes at pc, before and after the move `pass` is consumed. -/
theorem stepRunsTheDecodedInstruction : Obligations.StepRunsTheDecodedInstruction := by
  intro s w ex i ⟨hr, hw, hh, hs, hm, hb⟩ hdec
  refine ⟨(step_of_host_nil hh).trans (engineStep_of_bytesAt hr hw hs hm hb hdec), fun ms => ?_⟩
  exact engineStep_of_bytesAt (s := { s with host := ms }) hr hw hs hm hb hdec

end Sys2Proof.Proofs
end

section
/-! PROOF. The engine (40_engine.md R61 to R73): the decoder's choice of the instruction, a fetch beyond the memory, Push and Pop, what a
stop leaves alone, and that an instruction and a Running engine answer a next state. -/

namespace Sys2Proof

/-- The decoder on a word with enough bytes after it (R49, R63). -/
theorem decode_cons_of_le {w : Byte} {rest : List Byte} (h : extraCount w ≤ rest.length) :
    decode (w :: rest) = .ok (decodeBytes w (rest.getD 0 0) (rest.getD 1 0), rest.drop (extraCount w)) :=
  if_neg (Nat.not_lt.2 h)

/-- pc and sp moved by two are moved by one twice. -/
theorem add_two_eq {n : Nat} (a : BitVec n) : a + 2 = a + 1 + 1 := by
  rw [BitVec.add_assoc]
  exact congrArg (a + ·) (BitVec.ofNat_add 1 1)

end Sys2Proof

namespace Sys2Proof.Machine

open Sys2Proof.Safety

/-! A fetch beyond the memory. -/

section
variable {s : State} (hs : s.memStall = none)
include hs

theorem fetchInstr_of_word_ge (h : s.memSize ≤ s.pc.toNat) : fetchInstr s = .error (s.raiseOutOfBounds s.pc) := by
  rw [fetchInstr, fetchWord_of_ge (State.memAnswers_of_none hs _) h]

/-- With the word fetched, its extra bytes are what is left of the fetch. -/
theorem fetchInstr_of_word_lt (h : s.pc.toNat < s.memSize) :
    fetchInstr s = fetchExtra (extraCount (s.mem.read s.pc.toNat))
      { s with pc := s.pc + 1, ir := s.mem.read s.pc.toNat, extra := [] } := by
  rw [fetchInstr, fetchWord_of_lt (State.memAnswers_of_none hs _) h]

theorem fetchExtra_of_first_ge {k : Nat} (hk : 1 ≤ k) (h : s.memSize ≤ s.pc.toNat) :
    fetchExtra k s = .error (s.raiseOutOfBounds s.pc) := by
  obtain ⟨k, rfl⟩ := Nat.exists_eq_add_of_le' hk
  exact fetchExtra_succ_of_ge k (State.memAnswers_of_none hs _) h

theorem fetchExtra_two_of_second_ge (h1 : s.pc.toNat < s.memSize) (h2 : s.memSize ≤ (s.pc + 1).toNat) :
    fetchExtra 2 s = .error
      (State.raiseOutOfBounds { s with pc := s.pc + 1, extra := s.extra ++ [s.mem.read s.pc.toNat] } (s.pc + 1)) := by
  rw [fetchExtra_succ_of_lt 1 (State.memAnswers_of_none hs _) h1]
  exact fetchExtra_of_first_ge (s := { s with pc := s.pc + 1, extra := s.extra ++ [s.mem.read s.pc.toNat] }) hs le_rfl h2

end

/-- A Running engine whose next fetch stops is where that fetch has left it. -/
theorem step_of_fetchInstr_error {s t : State} (hr : s.runState = .running) (hw : s.wait = .none) (hh : s.host = [])
    (h : fetchInstr s = .error t) : step s = .next t := by
  rw [step_of_host_nil hh, engineStep_of_no_wait hr hw, h, runFetched]

/-! Stops. -/

/-- An instruction that takes the engine out of Running ends in the one stop (R89). What it did before is a first push or pop that
another one out of bounds follows; with a conforming memory there is none. -/
theorem exec_stop {i : Instr} {s t : State} (hr : s.runState = .running) (h : exec i s = .next t) (ht : t.runState ≠ .running) :
    ∃ m p rs c k a, t = State.stop { s with mem := m, sp := p } rs c k a ∧ (65536 ≤ s.memSize → m = s.mem ∧ p = s.sp) := by
  have outOfBounds {b : Byte} (hb : s.memSize ≤ b.toNat) (hm : 65536 ≤ s.memSize) : False := by
    have := b.isLt
    omega
  cases exec_shape h
  case halt | unrecognized | illegalRegister | callAborts | retAborts | storeAborts | diskAborts =>
    exact ⟨s.mem, s.sp, _, _, _, _, rfl, fun _ => ⟨rfl, rfl⟩⟩
  case callAbortsHalfway h2 => exact ⟨_, _, _, _, _, _, rfl, fun hm => (outOfBounds h2 hm).elim⟩
  case retAbortsHalfway h2 => exact ⟨_, _, _, _, _, _, rfl, fun hm => (outOfBounds h2 hm).elim⟩
  case result | token => exact absurd (by simpa using hr) ht
  -- the other shapes leave the run state as it was
  all_goals exact absurd hr ht

/-! Next states. -/

/-- Each arm of exec is a next state. -/
theorem exec_answers (i : Instr) (s : State) : ∃ t, exec i s = .next t := by
  cases i <;> exact ⟨_, rfl⟩

theorem runFetched_answers (f : Except State State) : ∃ t, runFetched f = .next t := by
  cases f with
  | ok u => exact exec_answers u.fetched u
  | error t => exact ⟨t, rfl⟩

theorem engineStep_answers {s : State} (h : s.runState ≠ .aborted) : ∃ t, engineStep s = .next t := by
  cases hr : s.runState with
  | halted => exact ⟨s, engineStep_halted hr⟩
  | aborted => exact absurd hr h
  | running =>
    cases hf : fetching s with
    | none => exact ⟨_, engineStep_waiting hr hf⟩
    | some f =>
      rw [engineStep_running hr, hf]
      exact runFetched_answers f

theorem engineStep_fault {s : State} {f : Fault} (h : engineStep s = .fault f) :
    s.runState = .aborted ∧ f = .aborted s.stopAddr := by
  by_cases hr : s.runState = .aborted
  · rw [engineStep_aborted hr] at h
    cases h
    exact ⟨hr, rfl⟩
  · obtain ⟨t, ht⟩ := engineStep_answers hr
    cases ht.symm.trans h

/-- Of the host's moves only `pass` can fault: it is the engine's own step. -/
theorem hostMove_fault {m : HostMove} {s : State} {f : Fault} (h : hostMove m s = .fault f) : engineStep s = .fault f := by
  cases m with
  | pass => exact h
  | start e =>
    simp only [hostMove, hostStart] at h
    split at h
    · split at h <;> cases h
    · cases h
  | load a v =>
    simp only [hostMove, hostLoad] at h
    split at h <;> cases h
  | reset | supply | setReady | stallMemory => cases h

/-- A Running engine ignores a Start (R107), and only a load is refused (R112). -/
theorem hostMove_answers {m : HostMove} {s : State} (hr : s.runState = .running) (hm : ∀ a v, m ≠ .load a v) :
    ∃ t, hostMove m s = .next t := by
  cases m with
  | pass => exact engineStep_answers (by simp [hr])
  | start e => exact ⟨s, if_neg (by simp [hr])⟩
  | load a v => exact absurd rfl (hm a v)
  | reset | supply | setReady | stallMemory => exact ⟨_, rfl⟩

theorem step_fault {s : State} {f : Fault} (h : step s = .fault f) : s.runState = .aborted ∧ f = .aborted s.stopAddr := by
  cases hh : s.host with
  | nil => exact engineStep_fault ((step_of_host_nil hh).symm.trans h)
  | cons m ms => exact engineStep_fault (s := { s with host := ms }) (hostMove_fault ((step_of_host_cons hh).symm.trans h))

theorem step_answers {s : State} (hr : s.runState = .running) (hl : ∀ a v ms, s.host ≠ .load a v :: ms) :
    ∃ t, step s = .next t := by
  cases hh : s.host with
  | nil =>
    rw [step_of_host_nil hh]
    exact engineStep_answers (by simp [hr])
  | cons m ms =>
    rw [step_of_host_cons hh]
    exact hostMove_answers hr fun a v e => hl a v ms (e ▸ hh)

end Sys2Proof.Machine

namespace Sys2Proof.Proofs

open Sys2Proof.Machine Sys2Proof.Safety

/-- Settles O3: two bytes after the word are enough for every opcode, and the fields of what is decoded are the word's. -/
theorem opcodeFieldSelectsTheInstruction : Obligations.OpcodeFieldSelectsTheInstruction := by
  intro w b1 b2 rest
  have enough : extraCount w ≤ (b1 :: b2 :: rest).length := (extraCount_le w).trans (by simp)
  refine ⟨decodeBytes w b1 b2, ?_, opcode_decodeBytes w b1 b2, operand_decodeBytes w b1 b2⟩
  rw [extraBytes_decodeBytes]
  exact decode_cons_of_le enough

/-- Settles O7: the fetches before the one out of bounds succeed, and that one aborts. -/
theorem fetchOutOfBoundsAborts : Obligations.FetchOutOfBoundsAborts := by
  intro s w b hr hw hh hs
  refine ⟨fun h0 => ?_, fun h0 hb hk h1 => ?_, fun h0 hb hk h1 hb1 h2 => ?_⟩ <;> apply step_of_fetchInstr_error hr hw hh
  · exact fetchInstr_of_word_ge hs h0
  · subst hb
    rw [fetchInstr_of_word_lt hs h0]
    exact fetchExtra_of_first_ge (s := { s with pc := s.pc + 1, ir := _, extra := [] }) hs hk h1
  · subst hb hb1
    rw [add_two_eq] at h2 ⊢
    rw [fetchInstr_of_word_lt hs h0, hk]
    exact fetchExtra_two_of_second_ge (s := { s with pc := s.pc + 1, ir := _, extra := [] }) hs h1 h2

/-- Settles O8: no arm of exec is a fault or a refusal. -/
theorem execAlwaysAnswersANextState : Obligations.ExecAlwaysAnswersANextState := exec_answers

/-- Settles O10: the write below the capacity, and sp after it. -/
theorem pushWritesThenDecrements : Obligations.PushWritesThenDecrements := by
  intro s v h
  have hsp : (s.sp - 1).toNat = (s.sp.toNat + 255) % 256 := by bv_omega
  exact ⟨_, push_of_lt v h, Memory.read_write_self _ _ _, fun _ ha => Memory.read_write_ne _ v ha, rfl, hsp, fun _ => rfl, rfl, rfl,
    ⟨rfl, rfl, rfl, rfl, rfl, rfl, rfl⟩, ⟨rfl, fun _ => rfl⟩, ⟨rfl, rfl⟩, ⟨rfl, rfl, rfl, rfl, rfl⟩⟩

/-- Settles O11: the read below the capacity, at sp as the pop leaves it. -/
theorem popIncrementsThenReads : Obligations.PopIncrementsThenReads := by
  intro s h
  have hsp : (s.sp + 1).toNat = (s.sp.toNat + 1) % 256 := by bv_omega
  exact ⟨_, _, pop_of_lt h, by rw [hsp], hsp, fun _ => rfl, rfl, rfl, ⟨rfl, rfl, rfl, rfl, rfl, rfl, rfl⟩, ⟨rfl, fun _ => rfl⟩,
    ⟨rfl, fun _ => rfl⟩, ⟨rfl, rfl⟩, ⟨rfl, rfl, rfl, rfl, rfl⟩⟩

/-- Settles O35: from `exec_stop`, as the stop changes the status alone. -/
theorem aStopWritesNothingElse : Obligations.AStopWritesNothingElse := by
  intro i s t hr h ht
  obtain ⟨m, p, rs, c, k, a, rfl, hsame⟩ := exec_stop hr h ht
  refine ⟨fun _ => rfl, rfl, rfl, ⟨rfl, fun _ => rfl⟩, ⟨rfl, rfl⟩, ⟨rfl, rfl, rfl, rfl, rfl⟩, rfl, fun hm => ?_⟩
  obtain ⟨rfl, rfl⟩ := hsame hm
  exact ⟨⟨rfl, fun _ => rfl⟩, rfl⟩

/-- Settles O52: the engine's own step is the only one that faults, and it does so only from Aborted. -/
theorem aRunningEngineNeverFaults : Obligations.ARunningEngineNeverFaults :=
  fun _ => ⟨fun _ h => step_fault h, fun hr hl => step_answers hr hl⟩

/-- Settles O60: by the equation of each instruction whose memory transaction is out of bounds. -/
theorem memoryOutOfBoundsAborts : Obligations.MemoryOutOfBoundsAborts := by
  intro x a s hs
  have answers (m : MemAccess) : s.memAnswers m = true := State.memAnswers_of_none hs m
  refine ⟨fun n d r hr hd => ?_, fun h => exec_call_of_ge (answers _) h, fun h1 h2 => ⟨_, push_of_lt _ h1, ?_⟩,
    fun h => exec_ret_of_ge (answers _) h, fun h1 h2 => ?_⟩
  · rw [addr8Of_toNat] at hd
    exact exec_store_of_ge hr (answers _) hd
  · exact exec_call_of_second_ge (answers _) (answers _) h1 h2
  · rw [add_two_eq] at h2 ⊢
    exact exec_ret_of_second_ge (answers _) (answers _) h1 h2

end Sys2Proof.Proofs
end

section
/-! PROOF. Data and ALU (41_data_alu.md R74 to R78): the word of NOP, the two ALU operations modulo 256, and what writing a result leaves
alone. -/

namespace Sys2Proof

/-! The word of NOP. -/

theorem opcodeOf_eq_zero_of_le {w : Byte} (h : w.toNat ≤ 0x0F) : opcodeOf w = 0x0 := by
  apply BitVec.eq_of_toNat_eq
  simp only [opcodeOf, BitVec.extractLsb'_toNat, Nat.shiftRight_eq_div_pow, BitVec.ofNat_eq_ofNat, BitVec.toNat_ofNat]
  omega

theorem decodeBytes_of_opcode_zero {w : Byte} (h : opcodeOf w = 0x0) (b1 b2 : Byte) :
    decodeBytes w b1 b2 = .nop (operandOf w) := decodeBytes_of_opcode h b1 b2

/-- The words 0x00 to 0x0F are NOP, alone (R53, R74). -/
theorem decode_nop {w : Byte} (h : w.toNat ≤ 0x0F) : decode [w] = .ok (.nop (operandOf w), []) := by
  have hnop := decodeBytes_of_opcode_zero (opcodeOf_eq_zero_of_le h)
  have alone : extraCount w = 0 := by rw [extraCount, hnop, Instr.extraBytes]
  rw [decode_cons_of_le (Nat.le_of_eq alone), hnop, List.drop_nil]

end Sys2Proof

namespace Sys2Proof.Machine

open Sys2Proof.Safety

/-! The ALU. -/

theorem aluAdd_toNat (a b : Byte) : (aluAdd a b).toNat = (a.toNat + b.toNat) % 256 := by
  simp only [aluAdd, BitVec.toNat_setWidth, BitVec.toNat_add]
  omega

theorem aluSub_toNat (a b : Byte) : ((aluSub a b).toNat : Int) = (a.toNat - b.toNat : Int) % 256 := by
  simp only [aluSub, BitVec.toNat_ofInt]
  omega

theorem aluAdd_eq_zero_iff (a b : Byte) : aluAdd a b = 0 ↔ (a.toNat + b.toNat) % 256 = 0 := by
  rw [← aluAdd_toNat]
  exact BitVec.toNat_inj.symm

theorem aluSub_eq_zero_iff (a b : Byte) : aluSub a b = 0 ↔ a = b := by
  have hsub := aluSub_toNat a b
  bv_omega

/-! A result written. -/

theorem State.writeResult_z_iff (s : State) (r : Reg) (v : Byte) : (s.writeResult r v).z = true ↔ v = 0 := by
  rw [State.writeResult_z, beq_iff_eq]

/-- Only the register and Z differ (R19, R70). -/
theorem State.writeResult_frame (s : State) (r : Reg) (v : Byte) : SameRegsBut r s (s.writeResult r v) ∧
    (s.writeResult r v).pc = s.pc ∧ (s.writeResult r v).sp = s.sp ∧ SameOutside s (s.writeResult r v) := by
  refine ⟨fun _ hq => State.getReg_writeResult_ne s v hq, State.writeResult_pc s r v, State.writeResult_sp s r v, ?_⟩
  simp [SameOutside, SameStatus, SameMem, SameDisk, SameChannels, SameHost]

end Sys2Proof.Machine

namespace Sys2Proof.Proofs

open Sys2Proof.Machine Sys2Proof.Safety

/-- Settles O14: LOAD writes the immediate as its result. -/
theorem loadWritesTheImmediate : Obligations.LoadWritesTheImmediate := fun _ v s r h =>
  ⟨_, exec_load_of h v, State.getReg_writeResult_self s r v, State.writeResult_z_iff s r v, State.writeResult_frame s r v⟩

/-- Settles O15: ADD and SUB write what the ALU gives for the old values. -/
theorem addAndSubAreModulo256 : Obligations.AddAndSubAreModulo256 := by
  intro n m s i j hi hj
  refine ⟨⟨_, exec_add_of hi hj, ?_, ?_, State.writeResult_frame s i _⟩, ⟨_, exec_sub_of hi hj, ?_, ?_, State.writeResult_frame s i _⟩⟩
  · rw [State.getReg_writeResult_self, aluAdd_toNat]
  · rw [State.writeResult_z_iff, aluAdd_eq_zero_iff]
  · rw [State.getReg_writeResult_self, aluSub_toNat]
  · rw [State.writeResult_z_iff, aluSub_eq_zero_iff]

/-- Settles O16: STORE's one write to memory, below the capacity. -/
theorem storeWritesOneLowByte : Obligations.StoreWritesOneLowByte := by
  intro n d s r hr hd hm
  rw [addr8Of_toNat] at hd ⊢
  exact ⟨_, exec_store_of_lt hr hm hd, rfl, Memory.read_write_self _ _ _, fun _ ha => Memory.read_write_ne _ _ ha, rfl,
    fun _ => rfl, rfl, rfl, rfl, ⟨rfl, rfl, rfl, rfl, rfl, rfl, rfl⟩, ⟨rfl, fun _ => rfl⟩, ⟨rfl, rfl⟩, ⟨rfl, rfl, rfl, rfl, rfl⟩⟩

/-- Settles O13: a step on such a word is the fetch of one byte, as NOP leaves the fetched state alone. -/
theorem nopHasNoEffect : Obligations.NopHasNoEffect := by
  refine ⟨fun _ _ => rfl, fun s w hw hs => ?_⟩
  have hstep := (stepRunsTheDecodedInstruction s w [] _ hs (decode_nop hw)).1
  rw [hstep, exec, execNop, afterFetch, List.length_nil, BitVec.add_zero]

end Sys2Proof.Proofs
end

section
/-! PROOF. Control transfer (42_control_flow.md R79 to R82): the step on the words of JMP, JZ, CALL and RET, and CALL and RET whole in a
memory that has the stack window. -/

namespace Sys2Proof

/-- A word with exactly the extra bytes of what it decodes to is that instruction, and nothing is left. -/
theorem decode_of_decodeBytes {w : Byte} {ex : List Byte} {i : Instr} (hi : decodeBytes w (ex.getD 0 0) (ex.getD 1 0) = i)
    (hlen : ex.length = i.extraBytes) : decode (w :: ex) = .ok (i, []) := by
  subst hi
  rw [extraBytes_decodeBytes] at hlen
  rw [decode_cons_of_le (Nat.le_of_eq hlen.symm), ← hlen, List.drop_length]

/-- sp moved back by two is moved back by one twice. -/
theorem sub_two_eq {n : Nat} (a : BitVec n) : a - 2 = a - 1 - 1 := by
  rw [BitVec.sub_sub]
  exact congrArg (a - ·) (BitVec.ofNat_add 1 1)

end Sys2Proof

namespace Sys2Proof.Machine

open Sys2Proof.Safety

/-! The step on a word of known meaning. -/

theorem step_of_decodeBytes {s : State} {w : Byte} {ex : List Byte} {i : Instr} (hs : AboutTo s (w :: ex))
    (hi : decodeBytes w (ex.getD 0 0) (ex.getD 1 0) = i) (hlen : ex.length = i.extraBytes) :
    step s = exec i (afterFetch s w ex) :=
  (Proofs.stepRunsTheDecodedInstruction s w ex i hs (decode_of_decodeBytes hi hlen)).1

/-- After an instruction of three bytes pc is three further, modulo 65536 (R17, R71). -/
theorem afterFetch_two_pc (s : State) (w b1 b2 : Byte) : (afterFetch s w [b1, b2]).pc = s.pc + 3 := by
  rw [afterFetch, BitVec.add_assoc]
  rfl

section

variable {s : State} {w lo hi : Byte} (hs : AboutTo s [w, lo, hi])
include hs

theorem step_jmp (hw : opcodeOf w = 0x5) :
    step s = exec (.jmp (operandOf w) (addr16Of lo hi)) (afterFetch s w [lo, hi]) :=
  step_of_decodeBytes hs (decodeBytes_of_opcode hw lo hi) rfl

theorem step_jz (hw : opcodeOf w = 0x6) :
    step s = exec (.jz (operandOf w) (addr16Of lo hi)) (afterFetch s w [lo, hi]) :=
  step_of_decodeBytes hs (decodeBytes_of_opcode hw lo hi) rfl

theorem step_call (hw : opcodeOf w = 0x7) :
    step s = exec (.call (operandOf w) (addr16Of lo hi)) (afterFetch s w [lo, hi]) :=
  step_of_decodeBytes hs (decodeBytes_of_opcode hw lo hi) rfl

end

theorem step_ret {s : State} {w : Byte} (hs : AboutTo s [w]) (hw : opcodeOf w = 0x8) :
    step s = exec (.ret (operandOf w)) (afterFetch s w []) :=
  step_of_decodeBytes hs (decodeBytes_of_opcode hw 0 0) rfl

/-- A state about to execute has the stack window (R18, R29). -/
theorem window_of_aboutTo {s : State} {bytes : List Byte} (hs : AboutTo s bytes) : 256 ≤ s.memSize := by
  obtain ⟨-, -, -, -, hm, -⟩ := hs
  exact le_trans (by decide) hm

theorem memAnswers_of_aboutTo {s : State} {bytes : List Byte} (hs : AboutTo s bytes) (m : MemAccess) : s.memAnswers m = true := by
  obtain ⟨-, -, -, hstall, -, -⟩ := hs
  exact State.memAnswers_of_none hstall m

/-! JZ. -/

/-- JZ moves pc alone: to its target, or not at all (R80). -/
theorem exec_jz_eq (x : Nibble) (a : Addr) (s : State) :
    exec (.jz x a) s = .next { s with pc := if s.z then a else s.pc } := by
  rw [exec, execJz]
  split <;> rfl

/-! CALL and RET in a memory that has the stack window (R18): every stack pointer is below the capacity. -/

/-- Memory with the return address `ret` pushed at `sp`: the high byte there, the low byte below it, modulo 256 (R68, R81). -/
def Memory.pushAddr (m : Memory) (sp : Byte) (ret : Addr) : Memory :=
  (m.write sp.toNat (highByte ret)).write (sp - 1).toNat (lowByte ret)

/-- The two stack addresses of a push differ, also where sp wraps. -/
theorem sub_one_toNat_ne (sp : Byte) : (sp - 1).toNat ≠ sp.toNat := by bv_omega

section

variable (m : Memory) (sp : Byte) (ret : Addr)

theorem Memory.read_pushAddr_high : (m.pushAddr sp ret).read sp.toNat = highByte ret := by
  rw [Memory.pushAddr, Memory.read_write_ne _ _ (sub_one_toNat_ne sp).symm, Memory.read_write_self]

theorem Memory.read_pushAddr_low : (m.pushAddr sp ret).read (sp - 1).toNat = lowByte ret := Memory.read_write_self _ _ _

theorem Memory.read_pushAddr_ne {b : Nat} (hhigh : b ≠ sp.toNat) (hlow : b ≠ (sp - 1).toNat) :
    (m.pushAddr sp ret).read b = m.read b :=
  (Memory.read_write_ne _ _ hlow).trans (Memory.read_write_ne _ _ hhigh)

end

section

variable {s : State} (hm : 256 ≤ s.memSize)
include hm

theorem exec_call_of_window (x : Nibble) (a : Addr) (hh : s.memAnswers .pushHigh = true) (hl : s.memAnswers .pushLow = true) :
    exec (.call x a) s = .next { s with mem := s.mem.pushAddr s.sp s.pc, sp := s.sp - 2, pc := a } := by
  rw [sub_two_eq]
  exact exec_call_of_lt hh hl (s.sp.isLt.trans_le hm) ((s.sp - 1).isLt.trans_le hm)

theorem exec_ret_of_window (x : Nibble) (hl : s.memAnswers .popLow = true) (hh : s.memAnswers .popHigh = true) :
    exec (.ret x) s = .next { s with
      sp := s.sp + 2, pc := addr16Of (s.mem.read (s.sp + 1).toNat) (s.mem.read (s.sp + 2).toNat) } := by
  rw [add_two_eq]
  exact exec_ret_of_lt hl hh ((s.sp + 1).isLt.trans_le hm) ((s.sp + 1 + 1).isLt.trans_le hm)

end

/-! What a change of pc and sp, and of memory with them, leaves alone. -/

theorem frame_with_pc_sp (s : State) (p : Addr) (k : Byte) : SameRegs s { s with pc := p, sp := k } ∧
    State.z { s with pc := p, sp := k } = s.z ∧ SameOutside s { s with pc := p, sp := k } :=
  ⟨fun _ => rfl, rfl, ⟨rfl, rfl, rfl, rfl, rfl, rfl, rfl⟩, ⟨rfl, fun _ => rfl⟩, ⟨rfl, fun _ => rfl⟩, ⟨rfl, rfl⟩,
    rfl, rfl, rfl, rfl, rfl⟩

/-- When memory changes as well, the rest of that frame stays. -/
theorem frame_with_mem_pc_sp (s : State) (m : Memory) (p : Addr) (k : Byte) :
    SameRegs s { s with mem := m, pc := p, sp := k } ∧ State.z { s with mem := m, pc := p, sp := k } = s.z ∧
    SameStatus s { s with mem := m, pc := p, sp := k } ∧ SameDisk s { s with mem := m, pc := p, sp := k } ∧
    SameChannels s { s with mem := m, pc := p, sp := k } ∧ SameHost s { s with mem := m, pc := p, sp := k } := by
  obtain ⟨hregs, hz, hstatus, -, hdisk, hchannels, hhost⟩ := frame_with_pc_sp s p k
  exact ⟨hregs, hz, hstatus, hdisk, hchannels, hhost⟩

end Sys2Proof.Machine

namespace Sys2Proof.Proofs

open Sys2Proof.Machine Sys2Proof.Safety

/-- Settles O17: the step is exec of JMP on the fetched state, with the target of its two extra bytes. -/
theorem jmpSetsPc : Obligations.JmpSetsPc :=
  ⟨fun _ _ _ => rfl, fun _ _ lo hi hw hs => ⟨_, step_jmp hs hw, addr16Of_toNat lo hi, rfl, rfl, rfl⟩⟩

/-- Settles O18: by the value of Z, which the fetch leaves alone. -/
theorem jzJumpsExactlyWhenZ : Obligations.JzJumpsExactlyWhenZ := by
  refine ⟨fun x a s => ?_, fun s w lo hi hw hs => ?_⟩
  · exact ⟨_, exec_jz_eq x a s, fun hz => by rw [if_pos hz], fun hz => by rw [if_neg (ne_true_of_eq_false hz)]⟩
  · refine ⟨_, (step_jz hs hw).trans (exec_jz_eq _ _ _), fun hz => ?_, fun hz => ?_, rfl⟩
    · exact (congrArg BitVec.toNat (if_pos hz)).trans (addr16Of_toNat lo hi)
    · exact (if_neg (ne_true_of_eq_false hz)).trans (afterFetch_two_pc s w lo hi)

/-- Settles O19: the two pushed bytes and the frame of CALL; at a step, of CALL on the fetched state. -/
theorem callPushesTheReturnAddress : Obligations.CallPushesTheReturnAddress := by
  refine ⟨fun x a s hm hh hl => ?_, fun s w lo hi hw hs => ?_⟩ <;> simp only [stackAddr_toNat]
  · exact ⟨_, exec_call_of_window hm x a hh hl, rfl, rfl, Memory.read_pushAddr_high _ _ _, Memory.read_pushAddr_low _ _ _,
      fun _ => Memory.read_pushAddr_ne _ _ _, rfl, frame_with_mem_pc_sp s _ _ _⟩
  · have window := window_of_aboutTo hs
    have answers := memAnswers_of_aboutTo hs
    rw [step_call hs hw, ← afterFetch_two_pc s w lo hi]
    exact ⟨_, exec_call_of_window (s := afterFetch s w [lo, hi]) window _ _ (answers _) (answers _), addr16Of_toNat lo hi, rfl,
      Memory.read_pushAddr_high _ _ _, Memory.read_pushAddr_low _ _ _, fun _ => Memory.read_pushAddr_ne _ _ _,
      frame_with_mem_pc_sp (afterFetch s w [lo, hi]) _ _ _⟩

/-- Settles O20: RET's two reads, which move sp and pc alone; at a step, those of RET on the fetched state. -/
theorem retPopsTheReturnAddress : Obligations.RetPopsTheReturnAddress := by
  refine ⟨fun x s hm hl hh => ?_, fun s w hw hs => ?_⟩
  · exact ⟨_, exec_ret_of_window hm x hl hh, addr16Of_toNat _ _, rfl, frame_with_pc_sp s _ _⟩
  · have window := window_of_aboutTo hs
    have answers := memAnswers_of_aboutTo hs
    rw [step_ret hs hw]
    exact ⟨_, exec_ret_of_window (s := afterFetch s w []) window _ (answers _) (answers _), addr16Of_toNat _ _, rfl,
      frame_with_pc_sp (afterFetch s w []) _ _⟩

/-- Settles O21: the two reads of RET are at the addresses of CALL's two pushes, and give the two bytes of its pc. -/
theorem retUndoesCall : Obligations.RetUndoesCall := by
  intro x y a s hm hstall
  have answers (m : MemAccess) : s.memAnswers m = true := State.memAnswers_of_none hstall m
  refine ⟨_, exec_call_of_window hm x a (answers _) (answers _), rfl, fun p => ⟨_, exec_ret_of_window
    (s := { s with mem := s.mem.pushAddr s.sp s.pc, sp := s.sp - 2, pc := p }) hm y (answers _) (answers _), ?_, ?_⟩⟩
  · have hlow : s.sp - 2 + 1 = s.sp - 1 := by bv_omega
    have hhigh : s.sp - 2 + 2 = s.sp := BitVec.sub_add_cancel _ _
    simp only [hlow, hhigh, Memory.read_pushAddr_high, Memory.read_pushAddr_low, addr16Of_low_high]
  · exact BitVec.sub_add_cancel _ _

end Sys2Proof.Proofs
end

section
/-! PROOF. Channels and persistent store (43_io.md R83 to R86): the byte of a token, and the two channel and two disk instructions
whole, with what each leaves alone. -/

namespace Sys2Proof.Machine

/-! The byte of a token (R83; the spec's decision D16). -/

/-- The byte is the token modulo 256, with the remainder from 0 to 255 also where the token is negative. -/
theorem tokenByte_toNat (k : Int) : ((tokenByte k).toNat : Int) = k % 256 := by
  rw [tokenByte, BitVec.toNat_ofNat]
  omega

theorem tokenByte_eq_zero_iff (k : Int) : tokenByte k = 0 ↔ k % 256 = 0 := by
  rw [← tokenByte_toNat, Int.natCast_eq_zero]
  exact BitVec.toNat_inj.symm

end Sys2Proof.Machine

namespace Sys2Proof.Proofs

open Sys2Proof.Machine Sys2Proof.Safety

/-- Settles O22: IN writes the token's byte as its result, in the state without that token. -/
theorem inTakesOneToken : Obligations.InTakesOneToken := by
  intro n s r k ks hr hk
  obtain ⟨hregs, hpc, hsp, hstatus, hmem, hdisk, ⟨hinput, houtput⟩, hhost⟩ :=
    State.writeResult_frame { s with input := ks } r (tokenByte k)
  refine ⟨_, exec_inp_of_token hr hk, ?_, hinput, ?_, fun q hq => (hregs q hq).trans (State.getReg_with_input s ks q), hpc, hsp,
    hstatus, hmem, hdisk, houtput, hhost⟩
  · rw [State.getReg_writeResult_self, tokenByte_toNat]
  · rw [State.writeResult_z_iff, tokenByte_eq_zero_iff]

/-- Settles O24: DISK_READ writes the stored byte as its result; DISK_WRITE's one write is to the persistent store. -/
theorem diskInstructionsMoveOneByte : Obligations.DiskInstructionsMoveOneByte := by
  intro n a s r hr hd ha
  refine ⟨⟨_, exec_diskRead_of_lt hr hd ha, State.getReg_writeResult_self s r _, State.writeResult_z_iff s r _,
    State.writeResult_frame s r _⟩, ⟨_, exec_diskWrite_of_lt hr hd ha, Memory.read_write_self _ _ _,
    fun _ hb => Memory.read_write_ne _ _ hb, rfl, fun _ => rfl, rfl, rfl, rfl, ?_⟩⟩
  exact ⟨⟨rfl, rfl, rfl, rfl, rfl, rfl, rfl⟩, ⟨rfl, fun _ => rfl⟩, ⟨rfl, rfl⟩, ⟨rfl, rfl, rfl, rfl, rfl⟩⟩

/-- Settles O23: the byte emitted is the register's, and emitting it changes the output alone. -/
theorem outEmitsTheRegister : Obligations.OutEmitsTheRegister := fun _ s _ hr ho =>
  ⟨_, exec_out_of_ready hr ho, State.emit_output s _, fun _ => State.emit_getReg s _ _, rfl, rfl, rfl,
    ⟨rfl, rfl, rfl, rfl, rfl, rfl, rfl⟩, ⟨rfl, fun _ => rfl⟩, ⟨rfl, fun _ => rfl⟩, rfl, ⟨rfl, rfl, rfl, rfl, rfl⟩⟩

/-- Settles O25: both instructions raise the same stop, which changes the run state and the stop outputs alone. -/
theorem diskOutOfBoundsAborts : Obligations.DiskOutOfBoundsAborts := fun _ _ _ _ hr hd ha =>
  ⟨_, exec_diskRead_of_ge hr hd ha, exec_diskWrite_of_ge hr hd ha, ⟨rfl, rfl⟩, rfl, rfl, rfl, rfl, rfl, fun _ => rfl, rfl, rfl, rfl,
    ⟨rfl, fun _ => rfl⟩, ⟨rfl, fun _ => rfl⟩, ⟨rfl, rfl⟩, ⟨rfl, rfl, rfl, rfl, rfl⟩⟩

end Sys2Proof.Proofs
end

section
/-! PROOF. HALT and the unrecognized opcodes (44_halt.md R87, R88): the words 0xD0 to 0xEF, the byte they report, and the step on them. -/

namespace Sys2Proof

/-! The words of the unrecognized opcodes. -/

theorem opcodeOf_toNat (w : Byte) : (opcodeOf w).toNat = w.toNat / 16 := by
  simp only [opcodeOf, BitVec.extractLsb'_toNat, Nat.shiftRight_eq_div_pow]
  omega

/-- The words 0xD0 to 0xEF are those of the opcodes 0xD and 0xE (R53, R88). -/
theorem opcodeOf_unrecognized {w : Byte} (hlo : 0xD0 ≤ w.toNat) (hhi : w.toNat ≤ 0xEF) : opcodeOf w = 0xD ∨ opcodeOf w = 0xE := by
  have hop := opcodeOf_toNat w
  have hnum : (opcodeOf w).toNat = 13 ∨ (opcodeOf w).toNat = 14 := by omega
  exact hnum.imp BitVec.eq_of_toNat_eq BitVec.eq_of_toNat_eq

/-- The opcode is the high nibble of the word (R48). -/
theorem wordOf_eq_ofNat (op x : Nibble) : wordOf op x = BitVec.ofNat 8 (op.toNat * 16 + x.toNat) := by
  apply BitVec.eq_of_toNat_eq
  rw [wordOf, BitVec.toNat_append, BitVec.toNat_ofNat, ← Nat.shiftLeft_add_eq_or_of_lt x.isLt, Nat.shiftLeft_eq]
  omega

end Sys2Proof

namespace Sys2Proof.Machine

open Sys2Proof.Safety

/-! The stop of an unrecognized opcode, decoded from the word `w`, reports `w`. -/

theorem exec_unrecognizedD_operandOf {w : Byte} (hw : opcodeOf w = 0xD) (s : State) :
    exec (.unrecognizedD (operandOf w)) s = .next (s.raiseUnrecognized w) := by
  rw [exec, execUnrecognizedD, ← hw, wordOf_fields]

theorem exec_unrecognizedE_operandOf {w : Byte} (hw : opcodeOf w = 0xE) (s : State) :
    exec (.unrecognizedE (operandOf w)) s = .next (s.raiseUnrecognized w) := by
  rw [exec, execUnrecognizedE, ← hw, wordOf_fields]

/-- Only the word is fetched before the stop (R54, R88). -/
theorem step_unrecognized {s : State} {w : Byte} (hs : AboutTo s [w]) (hw : opcodeOf w = 0xD ∨ opcodeOf w = 0xE) :
    step s = .next ((afterFetch s w []).raiseUnrecognized w) := by
  rcases hw with hD | hE
  · exact (step_of_decodeBytes hs (decodeBytes_of_opcode hD 0 0) rfl).trans (exec_unrecognizedD_operandOf hD _)
  · exact (step_of_decodeBytes hs (decodeBytes_of_opcode hE 0 0) rfl).trans (exec_unrecognizedE_operandOf hE _)

end Sys2Proof.Machine

namespace Sys2Proof.Proofs

open Sys2Proof.Machine Sys2Proof.Safety

/-- Settles O30: HALT raises the stop of HALT, which changes the run state and the stop outputs alone. -/
theorem haltStopsNormally : Obligations.HaltStopsNormally := fun _ s => ⟨s.raiseHalt, rfl, ⟨rfl, rfl⟩, rfl, rfl, rfl⟩

/-- Settles O31: the byte reported is the word of the opcode and its operand; at a step, of the word fetched. -/
theorem unrecognizedOpcodesHaltAndReport : Obligations.UnrecognizedOpcodesHaltAndReport := by
  refine ⟨fun x s => ⟨?_, ?_⟩, fun s w hlo hhi hs => ?_⟩
  · rw [exec, execUnrecognizedD, State.raiseUnrecognized, wordOf_eq_ofNat]
    rfl
  · rw [exec, execUnrecognizedE, State.raiseUnrecognized, wordOf_eq_ofNat]
    rfl
  · rw [step_unrecognized hs (opcodeOf_unrecognized hlo hhi), State.raiseUnrecognized, afterFetch, List.length_nil, BitVec.add_zero]

end Sys2Proof.Proofs
end

section
/-! PROOF. The ways out of Running (60_exceptions.md R89 to R95): the stops an instruction, a fetch or a wait taken up again can end in,
and the two refusals of the host (R98; 70_reset_and_hazards.md R112). -/

namespace Sys2Proof.Machine

open Sys2Proof.Safety

/-- The stops of the engine, Reset apart, with memory capacity `M` and persistent-store capacity `D`: what the stopped state shows, and
the instruction fetched (R89, R91 to R93). -/
inductive EngineStop (M D : Nat) (t : State) : Prop where
  | halt (x : Nibble) (he : NormalEnd t) (hi : t.fetched = .halt x)
  | unrecognizedOpcode (hr : t.runState = .halted) (hc : t.stopCause = .unrecognizedOpcode) (hw : t.stopInfo = t.ir)
      (hop : opcodeOf t.ir = 0xD ∨ opcodeOf t.ir = 0xE)
  | illegalRegister (hr : t.runState = .halted) (hc : t.stopCause = .illegalRegister) (hi : t.fetched.firstIllegal = some t.stopInfo)
  | memoryOutOfBounds (he : AbortEnd t) (ha : M ≤ t.stopAddr.toNat)
  | diskOutOfBounds (n : Nibble) (he : AbortEnd t) (ha : D ≤ t.stopAddr.toNat)
      (hi : t.fetched = .diskRead n t.stopAddr ∨ t.fetched = .diskWrite n t.stopAddr)

/-- An access that the memory lacks, whatever was done before it (R30, R93). -/
theorem engineStop_raiseOutOfBounds {M D : Nat} {a : Addr} (s : State) (ha : M ≤ a.toNat) :
    EngineStop M D (s.raiseOutOfBounds a) :=
  .memoryOutOfBounds ⟨rfl, rfl⟩ ha

theorem opcodeOf_ir (s : State) : opcodeOf s.ir = s.fetched.opcode := (opcode_decodeBytes _ _ _).symm

/-- The fields of the instruction fetched are those of its word (R48, R63). -/
theorem wordOf_fetched (s : State) : wordOf s.fetched.opcode s.fetched.operand = s.ir := by
  rw [State.fetched, opcode_decodeBytes, operand_decodeBytes, wordOf_fields]

/-- The byte reported for an unrecognized opcode is the word fetched (R88, R91). -/
theorem engineStop_raiseUnrecognized {M D : Nat} {s : State} {op x : Nibble}
    (hi : op = 0xD ∧ s.fetched = .unrecognizedD x ∨ op = 0xE ∧ s.fetched = .unrecognizedE x) :
    EngineStop M D (s.raiseUnrecognized (wordOf op x)) := by
  have hop := opcodeOf_ir s
  have hword := wordOf_fetched s
  rcases hi with ⟨rfl, hi⟩ | ⟨rfl, hi⟩ <;> rw [hi] at hop hword
  · exact .unrecognizedOpcode rfl rfl hword (.inl hop)
  · exact .unrecognizedOpcode rfl rfl hword (.inr hop)

section
variable {s t : State} (hr : s.runState = .running) (ht : t.runState ≠ .running)
include hr ht

/-- The instruction fetched leaves Running by one of the stops. -/
theorem engineStop_exec (h : exec s.fetched s = .next t) : EngineStop s.memSize s.diskSize t := by
  cases exec_shape h
  case halt x hi => exact .halt x ⟨rfl, rfl⟩ hi
  case unrecognized op x hi => exact engineStop_raiseUnrecognized hi
  case illegalRegister k hi => exact .illegalRegister rfl rfl hi
  case diskAborts n a hi _ _ ha => exact .diskOutOfBounds n ⟨rfl, rfl⟩ ha hi
  case storeAborts d _ _ _ ha => exact engineStop_raiseOutOfBounds s (by rwa [addr8Of_toNat])
  case callAborts | callAbortsHalfway | retAborts | retAbortsHalfway =>
    exact engineStop_raiseOutOfBounds _ (by rwa [stackAddr_toNat])
  case result | token => exact absurd (by simpa using hr) ht
  -- the other shapes leave the run state as it was
  all_goals exact absurd hr ht

theorem engineStop_callPushLow {a : Addr} (h : t = callPushLow a s) : EngineStop s.memSize s.diskSize t := by
  subst h
  rcases callPushLow_cases a s with ⟨_, e⟩ | ⟨_, _, e⟩ | ⟨_, hsp, e⟩ <;> rw [e] at ht ⊢
  · exact absurd hr ht
  · exact absurd hr ht
  · exact engineStop_raiseOutOfBounds s (by rwa [stackAddr_toNat])

theorem engineStop_retPopHigh {lo : Byte} (h : t = retPopHigh lo s) : EngineStop s.memSize s.diskSize t := by
  subst h
  rcases retPopHigh_cases lo s with ⟨_, e⟩ | ⟨_, _, e⟩ | ⟨_, hsp, e⟩ <;> rw [e] at ht ⊢
  · exact absurd hr ht
  · exact absurd hr ht
  · exact engineStop_raiseOutOfBounds s (by rwa [stackAddr_toNat])

theorem engineStop_fetching_error (h : fetching s = some (.error t)) : EngineStop s.memSize s.diskSize t := by
  rcases fetching_error h with rfl | ⟨p, w, bs, _, ⟨a, rfl, ha⟩ | ⟨_, rfl⟩⟩
  · exact absurd hr ht
  · exact engineStop_raiseOutOfBounds _ ha
  · exact absurd hr ht

theorem engineStop_fetching_ok {u : State} (hf : fetching s = some (.ok u)) (h : exec u.fetched u = .next t) :
    EngineStop s.memSize s.diskSize t := by
  obtain ⟨hu, _⟩ := fetching_ok hf
  have hru : u.runState = .running := by rw [hu]; exact hr
  have hM : u.memSize = s.memSize := by rw [hu]
  have hD : u.diskSize = s.diskSize := by rw [hu]
  rw [← hM, ← hD]
  exact engineStop_exec hru ht h

end

/-- A wait taken up again is its instruction run again with nothing pending, or the second transaction of a CALL or RET (R71). -/
theorem resume_eq_exec {s : State} (hs : WaitOk s) (hf : fetching s = none) :
    exec s.fetched { s with wait := .none } = .next (resume s) ∨
    (∃ a, resume s = callPushLow a { s with wait := .none }) ∨ ∃ lo, resume s = retPopHigh lo { s with wait := .none } := by
  obtain ⟨_, h⟩ := hs
  rcases resume_cases hf with ⟨a, v, hw, e⟩ | ⟨a, hw, e⟩ | ⟨a, hw, e⟩ | ⟨hw, e⟩ | ⟨lo, hw, e⟩ | ⟨r, hw, e⟩ | ⟨v, hw, e⟩ |
    ⟨r, a, hw, e⟩ | ⟨a, v, hw, e⟩ <;> rw [e] <;> rw [hw] at h
  · obtain ⟨_, n, d, r, hi, hn, rfl, rfl⟩ := h
    exact .inl (by simp [hi, exec, execStore, hn])
  · obtain ⟨_, x, hi⟩ := h
    exact .inl (by rw [hi]; rfl)
  · exact .inr (.inl ⟨a, rfl⟩)
  · obtain ⟨_, x, hi⟩ := h
    exact .inl (by rw [hi]; rfl)
  · exact .inr (.inr ⟨lo, rfl⟩)
  · obtain ⟨_, n, hi, hn⟩ := h
    exact .inl (by simp [hi, exec, execIn, hn])
  · obtain ⟨_, n, r, hi, hn, rfl⟩ := h
    exact .inl (by simp [hi, exec, execOut, hn])
  · obtain ⟨_, n, hi, hn⟩ := h
    exact .inl (by simp [hi, exec, execDiskRead, hn])
  · obtain ⟨_, n, r, hi, hn, rfl⟩ := h
    exact .inl (by simp [hi, exec, execDiskWrite, hn])

/-- Running or not, the engine is at the reset status (R105). -/
theorem hostReset_status (s : State) : (hostReset s).runState = .halted ∧ (hostReset s).stopCause = .none := by
  unfold hostReset
  split <;> exact ⟨rfl, rfl⟩

section
variable {s t : State} (hs : WaitOk s) (hr : s.runState = .running) (ht : t.runState ≠ .running)
include hs hr ht

theorem engineStop_resume (hf : fetching s = none) (h : t = resume s) : EngineStop s.memSize s.diskSize t := by
  rcases resume_eq_exec hs hf with e | ⟨a, e⟩ | ⟨lo, e⟩ <;> rw [← h] at e
  · exact engineStop_exec (s := { s with wait := .none }) hr ht e
  · exact engineStop_callPushLow (s := { s with wait := .none }) hr ht e
  · exact engineStop_retPopHigh (s := { s with wait := .none }) hr ht e

theorem engineStop_engineStep (h : engineStep s = .next t) : EngineStop s.memSize s.diskSize t := by
  rcases engineStep_cases h with ⟨hhalted, _⟩ | ⟨_, u, hf, hu⟩ | ⟨_, hf⟩ | ⟨_, hf, ht'⟩
  · simp [hr] at hhalted
  · exact engineStop_fetching_ok hr ht hf hu
  · exact engineStop_fetching_error hr ht hf
  · exact engineStop_resume hs hr ht hf ht'

/-- A step leaves Running by a stop of the engine, or because the host gave Reset (R89, R105). -/
theorem step_leaves_running (h : step s = .next t) :
    EngineStop s.memSize s.diskSize t ∨ (t.runState = .halted ∧ t.stopCause = .none ∧ ∃ ms, s.host = .reset :: ms) := by
  rcases step_cases h with ⟨ms, _, he⟩ | ⟨ms, hh, rfl⟩ | ⟨e, ms, _, _, _, rfl⟩ | ⟨e, ms, _, _, rfl⟩ |
    ⟨a, v, ms, _, hload, _, rfl⟩ | ⟨a, v, ms, _, hload, _, rfl⟩ | ⟨k, ms, _, rfl⟩ | ⟨p, b, ms, _, rfl⟩ | ⟨m, ms, _, rfl⟩
  · exact .inl (engineStop_engineStep (s := { s with host := ms }) hs hr ht he)
  · obtain ⟨hhalted, hcause⟩ := hostReset_status { s with host := ms }
    exact .inr ⟨hhalted, hcause, ms, hh⟩
  · exact absurd rfl ht
  · exact absurd hr ht
  · exact absurd hr hload
  · exact absurd hr hload
  · exact absurd hr ht
  · cases p <;> exact absurd hr ht
  · exact absurd hr ht

end

end Sys2Proof.Machine

namespace Sys2Proof.Proofs

open Sys2Proof.Machine Sys2Proof.Safety

/-- Settles O36: each stop of the engine, and Reset, is one of the ways. -/
theorem theFiveWaysOutOfRunning : Obligations.TheFiveWaysOutOfRunning := by
  intro s t hs hr h ht
  rcases step_leaves_running hs hr ht h with hstop | hreset
  · cases hstop with
    | halt x he hi => exact .inl ⟨he, x, hi⟩
    | unrecognizedOpcode hr hc hw hop => exact .inr (.inl ⟨hr, hc, hw, hop⟩)
    | illegalRegister hr hc hi => exact .inr (.inr (.inl ⟨hr, hc, hi⟩))
    | memoryOutOfBounds he ha => exact .inr (.inr (.inr (.inl ⟨he, .inl ha⟩)))
    | diskOutOfBounds n he ha hi => exact .inr (.inr (.inr (.inl ⟨he, .inr ⟨ha, n, hi⟩⟩)))
  · exact .inr (.inr (.inr (.inr hreset)))

/-- Settles O49: the host's move is the step, and its premises select the refusal. -/
theorem theHostIsRefusedByName : Obligations.TheHostIsRefusedByName := by
  refine fun s ms => ⟨fun entry hh hr hd => ?_, fun a v hh hr => ?_⟩
  · rw [step_of_host_cons hh, hostMove, hostStart, if_pos hr, if_pos hd]
  · rw [step_of_host_cons hh, hostMove, hostLoad, if_pos hr]

end Sys2Proof.Proofs
end

section
/-! PROOF. Reset and Start (70_reset_and_hazards.md R105 to R108): what the transactions of an instruction that Reset abandons can change,
the values of the core after Reset, and when Start is accepted. -/

namespace Sys2Proof.Machine

open Sys2Proof.Safety

/-! Reset. -/

theorem getReg_coreReset (s : State) (r : Reg) : (coreReset s).getReg r = 0 := by cases r <;> rfl

theorem hostReset_of_running {s : State} (h : s.runState = .running) :
    hostReset s = coreReset { abandon (Config.transactionsDone s.draws) s with draws := s.draws + 1 } :=
  if_pos h

theorem hostReset_of_not_running {s : State} (h : s.runState ≠ .running) : hostReset s = coreReset s := if_neg h

/-- What the fetch of an instruction changes: pc, the bytes fetched and the wait (R65, R71). -/
theorem exists_eq_of_fetching_ok {s u : State} (h : fetching s = some (.ok u)) :
    ∃ p w bs, u = { s with pc := p, ir := w, extra := bs, wait := .none } :=
  ⟨_, _, _, (fetching_ok h).1⟩

/-- An instruction cut off has made transactions of its own, all of them if it was at its fetch, else those still to come; a fetch that
aborts or waits makes none that changes a store or a channel (R108). -/
theorem abandon_cases (k : Nat) (s : State) :
    (∃ u, fetching s = some (.ok u) ∧ TransactionsOf u.fetched u (abandon k s)) ∨ RestOf s (abandon k s) := by
  unfold abandon
  split
  · next u hf =>
    have hw : u.wait = .none := by rw [(fetching_ok hf).1]
    exact .inl ⟨u, hf, transactionsOf_some k u.fetched u hw⟩
  · next t hf =>
    refine .inr ?_
    rcases fetching_error hf with rfl | ⟨p, w, bs, _, ⟨a, rfl, _⟩ | ⟨_, rfl⟩⟩ <;> exact .of_same rfl rfl rfl rfl rfl rfl rfl
  · next hf => exact .inr (restOf_some k hf)

/-- A CALL fetched from its word on has moved pc past its three bytes (R71). -/
theorem pc_of_call_inProgress {s u : State} {x : Nibble} {a : Addr} (h : InProgress s u (.call x a)) (hw : s.wait = .none) :
    u.pc = s.pc + 3 := by
  obtain ⟨hf, hi⟩ := h
  have hfetch : fetchInstr s = .ok u := by simpa [fetching, hw] using hf
  have hcount : extraCount u.ir = 2 := (extraBytes_decodeBytes u.ir _ _).symm.trans (congrArg Instr.extraBytes hi)
  rw [fetchInstr_pc hfetch, hcount, BitVec.add_assoc]
  rfl

end Sys2Proof.Machine

namespace Sys2Proof.Proofs

open Sys2Proof.Machine Sys2Proof.Safety

/-- Settles O46: the abandoned instruction's own transactions, or those that its wait leaves, and then the reset values. -/
theorem resetWhileRunningAbandonsTheInstruction : Obligations.ResetWhileRunningAbandonsTheInstruction := by
  intro s ms hh hr
  refine ⟨_, (step_of_host_cons hh).trans (congrArg Host.Outcome.next (hostReset_of_running hr)), getReg_coreReset _,
    rfl, rfl, rfl, rfl, rfl, rfl, rfl, rfl, rfl, rfl, ?_⟩
  rcases abandon_cases (Config.transactionsDone s.draws) { s with host := ms } with ⟨u, hf, tx⟩ | rest
  · have fetched : InProgress s { u with host := s.host } u.fetched := ⟨fetching_with_host ms hf, rfl⟩
    obtain ⟨p, w, bs, rfl⟩ := exists_eq_of_fetching_ok hf
    refine ⟨tx.memSize, tx.diskSize, tx.host, fun b => ?_, fun b => ?_, ?_, ?_⟩
    · rcases tx.mem b with e | ⟨n, d, r, hi, hn, hm, hb, e⟩ | ⟨x, a, hi, hm, e⟩
      · exact .inl e
      · exact .inr (.inl ⟨_, n, d, r, hi ▸ fetched, hn, hm, hb, e⟩)
      · have call : InProgress s _ (.call x a) := hi ▸ fetched
        exact .inr (.inr (.inl ⟨_, x, a, call, pc_of_call_inProgress call, hm, e⟩))
    · rcases tx.disk b with e | ⟨n, a, r, hi, hn, hb, e⟩
      · exact .inl e
      · exact .inr (.inr ⟨_, n, a, r, hi ▸ fetched, hn, hb, e⟩)
    · rcases tx.input with e | ⟨e, n, hi⟩
      · exact .inl e
      · exact .inr ⟨e, .inr ⟨_, n, hi ▸ fetched⟩⟩
    · rcases tx.output with e | ⟨n, r, hi, hn, e⟩
      · exact .inl e
      · exact .inr ⟨_, e, .inr ⟨_, n, r, hi ▸ fetched, hn, rfl⟩⟩
  · refine ⟨rest.memSize, rest.diskSize, rest.host, fun b => ?_, fun b => ?_, ?_, ?_⟩
    · exact (rest.mem b).imp_right fun waiting => .inr (.inr waiting)
    · exact (rest.disk b).imp_right .inl
    · exact rest.input.imp_right fun ⟨e, waiting⟩ => ⟨e, .inl waiting⟩
    · exact rest.output.imp_right fun ⟨v, waiting, e⟩ => ⟨v, e, .inl waiting⟩

/-- Settles O45: Reset of an engine that is not Running touches the core alone. -/
theorem resetReachesTheResetState : Obligations.ResetReachesTheResetState := by
  intro s ms hh hr
  exact ⟨_, (step_of_host_cons hh).trans (congrArg Host.Outcome.next (hostReset_of_not_running hr)), getReg_coreReset _,
    rfl, rfl, rfl, rfl, rfl, rfl, rfl, rfl, rfl, rfl, ⟨rfl, fun _ => rfl⟩, ⟨rfl, fun _ => rfl⟩, ⟨rfl, rfl⟩, rfl, rfl, rfl, rfl⟩

/-- Settles O47: Start is accepted from Halted with a store open. -/
theorem startRunsAtTheEntry : Obligations.StartRunsAtTheEntry := by
  intro s entry ms hh hr hd
  rw [step_of_host_cons hh, hostMove, hostStart, if_pos hr, if_neg (Nat.ne_of_gt hd), State.startAt]

/-- Settles O48: Start is accepted from Halted alone. -/
theorem startIsIgnoredUnlessHalted : Obligations.StartIsIgnoredUnlessHalted := by
  intro s entry ms hh hr
  rw [step_of_host_cons hh, hostMove, hostStart, if_neg hr]

end Sys2Proof.Proofs
end
